-- ==== Sys2Proof/Word.lean ====
section
/-! DEFINITION. The word types of the CHIP-8 core (00_scope.md R8, R11; 30_encoding.md R91). Every value is unsigned. -/

namespace Sys2Proof

/-- Four bits of an opcode (R91: `op`, `n`). -/
abbrev Nibble := BitVec 4

/-- XLEN = 8: a V register, `DT`, `ST`, `sp`, a memory byte (R8). -/
abbrev Byte := BitVec 8

/-- The 12-bit address field `nnn` (R91). -/
abbrev Addr12 := BitVec 12

/-- ILEN = 16: `I`, `pc`, a stack entry, an opcode (R8). -/
abbrev Word := BitVec 16

/-- The number of a general register, 0 to 15 (10_state.md R21). -/
abbrev Reg := Fin 16

/-- A logical key, 0 to 15 (R14). -/
abbrev Key := Fin 16

/-- A host key identifier (R14); only `KEYMAP` gives it a meaning. -/
abbrev HostKey := Nat

end Sys2Proof
end

