-- ==== Sys2Proof/Syntax.lean ====
section
/-! DEFINITION. The 35 instructions of 30_encoding.md R110, one constructor per row of the opcode table. Operand fields
are those of R91 and are used exactly as extracted (R93). -/

namespace Sys2Proof

inductive Instr where
  | cls                              -- 00E0  CLS
  | ret                              -- 00EE  RET
  | sys (nnn : Addr12)               -- 0nnn  SYS addr
  | jp (nnn : Addr12)                -- 1nnn  JP addr
  | call (nnn : Addr12)              -- 2nnn  CALL addr
  | seImm (x : Reg) (kk : Byte)      -- 3xkk  SE Vx,kk
  | sneImm (x : Reg) (kk : Byte)     -- 4xkk  SNE Vx,kk
  | seReg (x y : Reg)                -- 5xy0  SE Vx,Vy
  | ldImm (x : Reg) (kk : Byte)      -- 6xkk  LD Vx,kk
  | addImm (x : Reg) (kk : Byte)     -- 7xkk  ADD Vx,kk
  | ldReg (x y : Reg)                -- 8xy0  LD Vx,Vy
  | orReg (x y : Reg)                -- 8xy1  OR Vx,Vy
  | andReg (x y : Reg)               -- 8xy2  AND Vx,Vy
  | xorReg (x y : Reg)               -- 8xy3  XOR Vx,Vy
  | addReg (x y : Reg)               -- 8xy4  ADD Vx,Vy
  | subReg (x y : Reg)               -- 8xy5  SUB Vx,Vy
  | shr (x y : Reg)                  -- 8xy6  SHR Vx  (y encoded, ignored)
  | subnReg (x y : Reg)              -- 8xy7  SUBN Vx,Vy
  | shl (x y : Reg)                  -- 8xyE  SHL Vx  (y encoded, ignored)
  | sneReg (x y : Reg)               -- 9xy0  SNE Vx,Vy
  | ldI (nnn : Addr12)               -- Annn  LD I,addr
  | jpV0 (nnn : Addr12)              -- Bnnn  JP V0,addr
  | rnd (x : Reg) (kk : Byte)        -- Cxkk  RND Vx,kk
  | drw (x y : Reg) (n : Nibble)     -- Dxyn  DRW Vx,Vy,n
  | skp (x : Reg)                    -- Ex9E  SKP Vx
  | sknp (x : Reg)                   -- ExA1  SKNP Vx
  | ldVxDt (x : Reg)                 -- Fx07  LD Vx,DT
  | ldVxK (x : Reg)                  -- Fx0A  LD Vx,K
  | ldDtVx (x : Reg)                 -- Fx15  LD DT,Vx
  | ldStVx (x : Reg)                 -- Fx18  LD ST,Vx
  | addI (x : Reg)                   -- Fx1E  ADD I,Vx
  | ldF (x : Reg)                    -- Fx29  LD F,Vx
  | ldB (x : Reg)                    -- Fx33  LD B,Vx
  | storeRegs (x : Reg)              -- Fx55  LD [I],Vx
  | loadRegs (x : Reg)               -- Fx65  LD Vx,[I]
  deriving DecidableEq, Repr

end Sys2Proof
end

