-- ==== Sys2Proof/WellFormed.lean ====
section
/-! DEFINITION. Which instruction terms some opcode stands for. The field types already bound every operand, so the
only terms without a word of their own are the two SYS terms whose words are CLS and RET (30_encoding.md R101, R116). -/

namespace Sys2Proof

/-- `SYS addr` is the words 0x0000 to 0x0FFF other than 0x00E0 and 0x00EE (R116). -/
def sysAddrLegal (nnn : Addr12) : Bool := nnn != 0x0E0#12 && nnn != 0x0EE#12

def Instr.wellFormed : Instr → Bool
  | .sys nnn => sysAddrLegal nnn
  | .cls | .ret | .jp _ | .call _ | .seImm _ _ | .sneImm _ _ | .seReg _ _ | .ldImm _ _ | .addImm _ _
  | .ldReg _ _ | .orReg _ _ | .andReg _ _ | .xorReg _ _ | .addReg _ _ | .subReg _ _ | .shr _ _
  | .subnReg _ _ | .shl _ _ | .sneReg _ _ | .ldI _ | .jpV0 _ | .rnd _ _ | .drw _ _ _ | .skp _ | .sknp _
  | .ldVxDt _ | .ldVxK _ | .ldDtVx _ | .ldStVx _ | .addI _ | .ldF _ | .ldB _ | .storeRegs _ | .loadRegs _ => true

end Sys2Proof
end

