-- ==== Sys2Proof/Decode.lean ====
section
/-! DEFINITION. The opcode map of 30_encoding.md R110 as rows, the decoder (R91, R101, R115) and the encoder. -/

namespace Sys2Proof

/-! ### Bytes, words and fields -/

/-- The opcode of two bytes: the byte at the lower address supplies bits 15..8 (20_memory.md R62). -/
def joinBytes (hi lo : Byte) : Word := hi ++ lo

/-- The byte of an opcode that lies at the lower address (R62). -/
def highByte (w : Word) : Byte := w.extractLsb' 8 8

/-- The byte of an opcode that lies at the higher address (R62); also the field `kk` (R91). -/
def lowByte (w : Word) : Byte := w.extractLsb' 0 8

/-- Bits 15..12, the major opcode `op` (R91). -/
def opField (w : Word) : Nibble := w.extractLsb' 12 4

/-- A register number as the nibble that encodes it. -/
def regNibble (x : Reg) : Nibble := BitVec.ofNat 4 x.val

/-- The register a nibble names: all 16 values are legal (R93). -/
def nibbleReg (v : Nibble) : Reg := v.toFin

/-- Bits 11..8, the register index `x` (R91). -/
def xField (w : Word) : Reg := nibbleReg (w.extractLsb' 8 4)

/-- Bits 7..4, the register index `y` (R91). -/
def yField (w : Word) : Reg := nibbleReg (w.extractLsb' 4 4)

/-- Bits 3..0, the immediate nibble or minor opcode `n` (R91). -/
def nField (w : Word) : Nibble := w.extractLsb' 0 4

/-- Bits 7..0, the immediate byte or minor opcode `kk` (R91). -/
def kkField (w : Word) : Byte := lowByte w

/-- Bits 11..0, the address `nnn` (R91). -/
def nnnField (w : Word) : Addr12 := w.extractLsb' 0 12

/-! ### The opcode map -/

/-- One row of the opcode map in mask and match form: the opcode `w` matches when `w &&& mask = pat` (R101). -/
structure OpcodeRow where
  mnemonic : String
  mask : Word
  pat : Word
  deriving DecidableEq, Repr

def OpcodeRow.admits (r : OpcodeRow) (w : Word) : Bool := w &&& r.mask == r.pat

/-- The mnemonic of an instruction's row in the opcode table. -/
def Instr.mnemonic : Instr → String
  | .cls => "CLS" | .ret => "RET" | .sys _ => "SYS_addr" | .jp _ => "JP_addr" | .call _ => "CALL_addr"
  | .seImm _ _ => "SE_Vx_kk" | .sneImm _ _ => "SNE_Vx_kk" | .seReg _ _ => "SE_Vx_Vy"
  | .ldImm _ _ => "LD_Vx_kk" | .addImm _ _ => "ADD_Vx_kk" | .ldReg _ _ => "LD_Vx_Vy"
  | .orReg _ _ => "OR_Vx_Vy" | .andReg _ _ => "AND_Vx_Vy" | .xorReg _ _ => "XOR_Vx_Vy"
  | .addReg _ _ => "ADD_Vx_Vy" | .subReg _ _ => "SUB_Vx_Vy" | .shr _ _ => "SHR_Vx"
  | .subnReg _ _ => "SUBN_Vx_Vy" | .shl _ _ => "SHL_Vx" | .sneReg _ _ => "SNE_Vx_Vy"
  | .ldI _ => "LD_I_addr" | .jpV0 _ => "JP_V0_addr" | .rnd _ _ => "RND_Vx_kk" | .drw _ _ _ => "DRW_Vx_Vy_n"
  | .skp _ => "SKP_Vx" | .sknp _ => "SKNP_Vx" | .ldVxDt _ => "LD_Vx_DT" | .ldVxK _ => "LD_Vx_K"
  | .ldDtVx _ => "LD_DT_Vx" | .ldStVx _ => "LD_ST_Vx" | .addI _ => "ADD_I_Vx" | .ldF _ => "LD_F_Vx"
  | .ldB _ => "LD_B_Vx" | .storeRegs _ => "LD__I__Vx" | .loadRegs _ => "LD_Vx__I"

/-- Rows 1 to 8 of R110 (`CLS` and `RET` before `SYS`), and the skip, load and add rows. -/
def flowRows : List OpcodeRow :=
  [⟨"CLS", 0xFFFF, 0x00E0⟩, ⟨"RET", 0xFFFF, 0x00EE⟩, ⟨"SYS_addr", 0xF000, 0x0000⟩, ⟨"JP_addr", 0xF000, 0x1000⟩,
   ⟨"CALL_addr", 0xF000, 0x2000⟩, ⟨"SE_Vx_kk", 0xF000, 0x3000⟩, ⟨"SNE_Vx_kk", 0xF000, 0x4000⟩,
   ⟨"SE_Vx_Vy", 0xF00F, 0x5000⟩, ⟨"LD_Vx_kk", 0xF000, 0x6000⟩, ⟨"ADD_Vx_kk", 0xF000, 0x7000⟩]

/-- Rows 11 to 20 of R110. -/
def aluRows : List OpcodeRow :=
  [⟨"LD_Vx_Vy", 0xF00F, 0x8000⟩, ⟨"OR_Vx_Vy", 0xF00F, 0x8001⟩, ⟨"AND_Vx_Vy", 0xF00F, 0x8002⟩,
   ⟨"XOR_Vx_Vy", 0xF00F, 0x8003⟩, ⟨"ADD_Vx_Vy", 0xF00F, 0x8004⟩, ⟨"SUB_Vx_Vy", 0xF00F, 0x8005⟩,
   ⟨"SHR_Vx", 0xF00F, 0x8006⟩, ⟨"SUBN_Vx_Vy", 0xF00F, 0x8007⟩, ⟨"SHL_Vx", 0xF00F, 0x800E⟩,
   ⟨"SNE_Vx_Vy", 0xF00F, 0x9000⟩]

/-- Rows 21 to 35 of R110. -/
def indexRows : List OpcodeRow :=
  [⟨"LD_I_addr", 0xF000, 0xA000⟩, ⟨"JP_V0_addr", 0xF000, 0xB000⟩, ⟨"RND_Vx_kk", 0xF000, 0xC000⟩,
   ⟨"DRW_Vx_Vy_n", 0xF000, 0xD000⟩, ⟨"SKP_Vx", 0xF0FF, 0xE09E⟩, ⟨"SKNP_Vx", 0xF0FF, 0xE0A1⟩,
   ⟨"LD_Vx_DT", 0xF0FF, 0xF007⟩, ⟨"LD_Vx_K", 0xF0FF, 0xF00A⟩, ⟨"LD_DT_Vx", 0xF0FF, 0xF015⟩,
   ⟨"LD_ST_Vx", 0xF0FF, 0xF018⟩, ⟨"ADD_I_Vx", 0xF0FF, 0xF01E⟩, ⟨"LD_F_Vx", 0xF0FF, 0xF029⟩,
   ⟨"LD_B_Vx", 0xF0FF, 0xF033⟩, ⟨"LD__I__Vx", 0xF0FF, 0xF055⟩, ⟨"LD_Vx__I", 0xF0FF, 0xF065⟩]

/-- The 35 rows of R110 in its order. -/
def opcodeRows : List OpcodeRow := flowRows ++ (aluRows ++ indexRows)

/-! ### The decoder -/

/-- Why bytes are no instruction. -/
inductive DecodeError where
  | truncated                     -- fewer than the two bytes every instruction has (R90)
  | invalidOpcode (opcode : Word) -- no pattern matches (R115)
  deriving DecidableEq, Repr

/-- `8xyN` by its minor nibble; N in 8..D and F is invalid (R115). -/
def decodeAlu (w : Word) : Except DecodeError Instr :=
  match (nField w).toNat with
  | 0x0 => .ok (.ldReg (xField w) (yField w))
  | 0x1 => .ok (.orReg (xField w) (yField w))
  | 0x2 => .ok (.andReg (xField w) (yField w))
  | 0x3 => .ok (.xorReg (xField w) (yField w))
  | 0x4 => .ok (.addReg (xField w) (yField w))
  | 0x5 => .ok (.subReg (xField w) (yField w))
  | 0x6 => .ok (.shr (xField w) (yField w))
  | 0x7 => .ok (.subnReg (xField w) (yField w))
  | 0xE => .ok (.shl (xField w) (yField w))
  | _ => .error (.invalidOpcode w)

/-- `ExKK` by its minor byte (R115). -/
def decodeKey (w : Word) : Except DecodeError Instr :=
  match (kkField w).toNat with
  | 0x9E => .ok (.skp (xField w))
  | 0xA1 => .ok (.sknp (xField w))
  | _ => .error (.invalidOpcode w)

/-- `FxKK` by its minor byte (R115). -/
def decodeMisc (w : Word) : Except DecodeError Instr :=
  match (kkField w).toNat with
  | 0x07 => .ok (.ldVxDt (xField w))
  | 0x0A => .ok (.ldVxK (xField w))
  | 0x15 => .ok (.ldDtVx (xField w))
  | 0x18 => .ok (.ldStVx (xField w))
  | 0x1E => .ok (.addI (xField w))
  | 0x29 => .ok (.ldF (xField w))
  | 0x33 => .ok (.ldB (xField w))
  | 0x55 => .ok (.storeRegs (xField w))
  | 0x65 => .ok (.loadRegs (xField w))
  | _ => .error (.invalidOpcode w)

/-- Selection by nibble pattern, `CLS` and `RET` before `SYS` (R101). Every nibble of a pattern takes part in the
match (R115; DESIGN CHOICE of the spec, D5, log 14). -/
def decodeWord (w : Word) : Except DecodeError Instr :=
  match (opField w).toNat with
  | 0x0 => if w = 0x00E0#16 then .ok .cls else if w = 0x00EE#16 then .ok .ret else .ok (.sys (nnnField w))
  | 0x1 => .ok (.jp (nnnField w))
  | 0x2 => .ok (.call (nnnField w))
  | 0x3 => .ok (.seImm (xField w) (kkField w))
  | 0x4 => .ok (.sneImm (xField w) (kkField w))
  | 0x5 => if nField w = 0#4 then .ok (.seReg (xField w) (yField w)) else .error (.invalidOpcode w)
  | 0x6 => .ok (.ldImm (xField w) (kkField w))
  | 0x7 => .ok (.addImm (xField w) (kkField w))
  | 0x8 => decodeAlu w
  | 0x9 => if nField w = 0#4 then .ok (.sneReg (xField w) (yField w)) else .error (.invalidOpcode w)
  | 0xA => .ok (.ldI (nnnField w))
  | 0xB => .ok (.jpV0 (nnnField w))
  | 0xC => .ok (.rnd (xField w) (kkField w))
  | 0xD => .ok (.drw (xField w) (yField w) (nField w))
  | 0xE => decodeKey w
  | _ => decodeMisc w

/-- Decoding from a list of bytes: the instruction and the bytes after it. Every instruction is two bytes (R90). -/
def decodeBytes : List Byte → Except DecodeError (Instr × List Byte)
  | hi :: lo :: rest =>
    match decodeWord (joinBytes hi lo) with
    | .ok i => .ok (i, rest)
    | .error e => .error e
  | _ => .error .truncated

/-- The row's word as the opcode table numbers it, through the decoder: bits above `nbits` are 0, and the one word
is laid out big-endian. -/
def decodeTableWord (nbits w : Nat) : Option Instr :=
  let v : Word := BitVec.ofNat 16 (w % 2 ^ nbits)
  match decodeBytes [highByte v, lowByte v] with
  | .ok (i, _) => some i
  | .error _ => none

/-! ### The encoder, from the formats of R92 -/

/-- Format NNN. -/
def wordNNN (op : Nibble) (nnn : Addr12) : Word := op ++ nnn

/-- Formats XKK and X (where `kk` is the minor opcode). -/
def wordXKK (op : Nibble) (x : Reg) (kk : Byte) : Word := (op ++ regNibble x : BitVec 8) ++ kk

/-- Formats XY (where `n` is the minor opcode) and XYN. -/
def wordXYN (op : Nibble) (x y : Reg) (n : Nibble) : Word :=
  (op ++ regNibble x : BitVec 8) ++ (regNibble y ++ n : BitVec 8)

/-- The opcode of an instruction (R92, R110). -/
def encode : Instr → Word
  | .cls => 0x00E0#16
  | .ret => 0x00EE#16
  | .sys nnn => wordNNN 0x0#4 nnn
  | .jp nnn => wordNNN 0x1#4 nnn
  | .call nnn => wordNNN 0x2#4 nnn
  | .seImm x kk => wordXKK 0x3#4 x kk
  | .sneImm x kk => wordXKK 0x4#4 x kk
  | .seReg x y => wordXYN 0x5#4 x y 0x0#4
  | .ldImm x kk => wordXKK 0x6#4 x kk
  | .addImm x kk => wordXKK 0x7#4 x kk
  | .ldReg x y => wordXYN 0x8#4 x y 0x0#4
  | .orReg x y => wordXYN 0x8#4 x y 0x1#4
  | .andReg x y => wordXYN 0x8#4 x y 0x2#4
  | .xorReg x y => wordXYN 0x8#4 x y 0x3#4
  | .addReg x y => wordXYN 0x8#4 x y 0x4#4
  | .subReg x y => wordXYN 0x8#4 x y 0x5#4
  | .shr x y => wordXYN 0x8#4 x y 0x6#4
  | .subnReg x y => wordXYN 0x8#4 x y 0x7#4
  | .shl x y => wordXYN 0x8#4 x y 0xE#4
  | .sneReg x y => wordXYN 0x9#4 x y 0x0#4
  | .ldI nnn => wordNNN 0xA#4 nnn
  | .jpV0 nnn => wordNNN 0xB#4 nnn
  | .rnd x kk => wordXKK 0xC#4 x kk
  | .drw x y n => wordXYN 0xD#4 x y n
  | .skp x => wordXKK 0xE#4 x 0x9E#8
  | .sknp x => wordXKK 0xE#4 x 0xA1#8
  | .ldVxDt x => wordXKK 0xF#4 x 0x07#8
  | .ldVxK x => wordXKK 0xF#4 x 0x0A#8
  | .ldDtVx x => wordXKK 0xF#4 x 0x15#8
  | .ldStVx x => wordXKK 0xF#4 x 0x18#8
  | .addI x => wordXKK 0xF#4 x 0x1E#8
  | .ldF x => wordXKK 0xF#4 x 0x29#8
  | .ldB x => wordXKK 0xF#4 x 0x33#8
  | .storeRegs x => wordXKK 0xF#4 x 0x55#8
  | .loadRegs x => wordXKK 0xF#4 x 0x65#8

/-- The two bytes of an instruction, lower address first (R62). -/
def encodeBytes (i : Instr) : List Byte := [highByte (encode i), lowByte (encode i)]

end Sys2Proof
end

