-- ==== Sys2Proof/Config.lean ====
section
/-! DEFINITION. What an implementation fixes, and the free values (00_scope.md R8, R9). The constants below that have no
body are free: nothing in Lean can evaluate them, so a claim about them holds whatever they are. -/

namespace Sys2Proof

/-- The two named policies for `SYS addr` (92_eei_decisions.md D4). The one the block follows is
`Machine.sysPolicy`. -/
inductive SysPolicy where
  | fault   -- executing it raises InvalidOpcode
  | nop     -- no effect; pc advances
  deriving DecidableEq, Repr

/-- FREE VALUE: the draw `rnd` of a `Step` (R9, 41_alu.md R161, D12), any byte. The argument counts the draws used
so far, so each draw is a fresh one. DESIGN CHOICE (log 1), safe. -/
opaque Config.rnd : Nat → Byte

/-- FREE VALUE: the draw `pick` of a `Step` (R9, 43_keyboard.md R205, D11), as an unconstrained number that
`Machine.pickKey` reduces to one of the held keys. DESIGN CHOICE (log 1, log 2), safe. -/
opaque Config.pick : Nat → Nat

/-- The parameter `KEYMAP` (R8, 43_keyboard.md R201, D21): which logical key a host key stands for, if any.
DESIGN CHOICE (log 9), safe. -/
opaque Config.keymap : HostKey → Option Key

end Sys2Proof
end

