-- ==== Sys2Proof/Machine/Params.lean ====
section
/-! DEFINITION. The parameters of the block (00_scope.md R8) that have a value: the fixed sizes, and the defaults of
`FONT` and `SYS_POLICY`. -/

namespace Sys2Proof.Machine

/-- MEM_SIZE: addresses 0x000 to 0xFFF (R8, 20_memory.md R60). -/
def memSize : Nat := 4096

/-- FONT_LEN: the font area is [0x000, 0x050) (R8). -/
def fontLen : Nat := 80

/-- GLYPH_SIZE: bytes per glyph, and the multiplier of `LD F,Vx` (R8). -/
def glyphSize : Nat := 5

/-- PROG_BASE: load address and reset value of `pc` (R8). -/
def progBase : Nat := 0x200

/-- MAX_ROM: the largest image `LoadProgram` accepts (R8; 90_conflicts.md C3, log 20). -/
def maxRom : Nat := 3583

/-- STACK_DEPTH (R8). -/
def stackDepth : Nat := 16

/-- SYS_POLICY: the spec's decision D4 is `fault`. DESIGN CHOICE (log 6), safe. -/
def sysPolicy : SysPolicy := .fault

/-- FONT, glyphs 0 to 7 (20_memory.md R66). PRESUMED (log 7), unsafe for claims about the shape of a glyph. -/
def fontLow : List Byte :=
  [0xF0, 0x90, 0x90, 0x90, 0xF0,  0x20, 0x60, 0x20, 0x20, 0x70,
   0xF0, 0x10, 0xF0, 0x80, 0xF0,  0xF0, 0x10, 0xF0, 0x10, 0xF0,
   0x90, 0x90, 0xF0, 0x10, 0x10,  0xF0, 0x80, 0xF0, 0x10, 0xF0,
   0xF0, 0x80, 0xF0, 0x90, 0xF0,  0xF0, 0x10, 0x20, 0x40, 0x40]

/-- FONT, glyphs 8 to F (R66). PRESUMED (log 7). -/
def fontHigh : List Byte :=
  [0xF0, 0x90, 0xF0, 0x90, 0xF0,  0xF0, 0x90, 0xF0, 0x10, 0xF0,
   0xF0, 0x90, 0xF0, 0x90, 0x90,  0xE0, 0x90, 0xE0, 0x90, 0xE0,
   0xF0, 0x80, 0x80, 0x80, 0xF0,  0xE0, 0x90, 0x90, 0x90, 0xE0,
   0xF0, 0x80, 0xF0, 0x80, 0xF0,  0xF0, 0x80, 0xF0, 0x80, 0x80]

/-- The default of FONT: 16 glyphs of 5 bytes (R66). -/
def fontTable : List Byte := fontLow ++ fontHigh

/-- A value of the parameter FONT: any 80 bytes (R8, R66). -/
abbrev Font := Vector Byte fontLen

/-- FONT at its default (log 7). -/
def defaultFont : Font := ⟨fontTable.toArray, rfl⟩

end Sys2Proof.Machine
end

