-- ==== Sys2Proof/Machine/State.lean ====
section
/-! DEFINITION. The complete state of the block (10_state.md R20), the model's record of its inputs, the reset value
(R40), and the reasons the model itself can stop. Plain data throughout. -/

namespace Sys2Proof.Machine

/-- The bytes of `mem` that differ from what an unlisted address reads as (`Memory.unlisted`), by strictly rising
address; see `Memory.wf`. -/
abbrev Memory := List Host.Cell

/-- One row of 64 pixels, column 0 first (R33). -/
abbrev PixelRow := Vector Bool 64

/-- The 32 rows of the framebuffer, row 0 first (R33). -/
abbrev Framebuffer := Vector PixelRow 32

/-- The set of held logical keys, one Bool per key (R35). -/
abbrev KeySet := Vector Bool 16

/-- The six kinds of fault (60_exceptions.md R250). -/
inductive FaultKind where
  | loadError | fetchOutOfBounds | invalidOpcode | stackOverflow | stackUnderflow | memOutOfBounds
  deriving DecidableEq, Repr

/-- The fault record (R250): `none` where the table of R250 says "none". `extra` is unbounded because a load's length
and an address above 0xFFFF must fit. -/
structure FaultRecord where
  kind   : FaultKind
  opcode : Option Word
  addr   : Option Word
  extra  : Option Nat
  deriving DecidableEq, Repr

/-- The state of the block: exactly the twelve elements of R20. -/
structure Block where
  V      : Vector Byte 16        -- general registers V0 to VF (R21, R22)
  I      : Word                  -- index register (R24)
  pc     : Word                  -- program counter (R25)
  sp     : Byte                  -- stack pointer, 0..16 (R28)
  stack  : Vector Word 16        -- call stack, not in memory (R29)
  DT     : Byte                  -- delay timer (R30)
  ST     : Byte                  -- sound timer (R31)
  mem    : Memory                -- 4096 bytes (R32)
  fb     : Framebuffer           -- 32 by 64 pixels (R33)
  redraw : Bool                  -- redraw needed (R34)
  keys   : KeySet                -- held logical keys (R35)
  fault  : Option FaultRecord    -- None, or the first fault (R36)
  deriving DecidableEq, Repr

/-- What the host's one-argument `step` runs over: the block, and the model's own record of how many draws have been
used. The draws are inputs of `Step` and no state of the block (R38); `step` has no argument for an input, so the
record says which of the free values of Config the next draw is (log 1). The spec's own operations, over `Block` with the
draws as arguments, are in Machine/BlockOps.lean. -/
structure State extends Block where
  draws  : Nat
  deriving DecidableEq, Repr

/-- Why the MODEL stops. No fault of the spec is one of these: the spec's faults are next states whose `fault`
register holds the record (60_exceptions.md R255, log 4). -/
inductive Fault where
  /-- Raised by `CALL` and `RET` when `sp` is above 16, so that the entry they would touch does not exist. R28: no
  operation ever takes `sp` outside 0..16. Safe (log 5). -/
  | stackEntryAbsent
  deriving DecidableEq, Repr

/-- Why the model gives an instruction no meaning. -/
inductive Refusal where
  /-- Raised by an arm of `exec` that has no meaning yet; no arm is left so. Safe. -/
  | notModelled (mnemonic : String)
  deriving DecidableEq, Repr

/-- The state right after `Reset` (R40, 70_reset_and_hazards.md R290). `mem` lists nothing: the font and the zeros
are what unlisted addresses read as. `redraw = 1` is the spec's decision D15 (log 10); `draws = 0` is the model's
DESIGN CHOICE (log 3). -/
def State.reset : State where
  V      := Vector.replicate 16 0#8
  I      := 0#16
  pc     := 0x200#16
  sp     := 0#8
  stack  := Vector.replicate 16 0#16
  DT     := 0#8
  ST     := 0#8
  mem    := []
  fb     := Vector.replicate 32 (Vector.replicate 64 false)
  redraw := true
  keys   := Vector.replicate 16 false
  fault  := none
  draws  := 0

end Sys2Proof.Machine
end

