-- ==== Sys2Proof/Machine/Ops.lean ====
section
/-! DEFINITION. The named operations over memory, registers and the call stack, the fetch, and fault entry. -/

namespace Sys2Proof.Machine

abbrev Result := Host.Outcome State Fault Refusal

/-! ### One update per field -/

def State.setV (s : State) (v : Vector Byte 16) : State := { s with V := v }
def State.setI (s : State) (v : Word) : State := { s with I := v }
def State.setPc (s : State) (v : Word) : State := { s with pc := v }
def State.setSp (s : State) (v : Byte) : State := { s with sp := v }
def State.setStack (s : State) (v : Vector Word 16) : State := { s with stack := v }
def State.setDT (s : State) (v : Byte) : State := { s with DT := v }
def State.setST (s : State) (v : Byte) : State := { s with ST := v }
def State.setMem (s : State) (v : Memory) : State := { s with mem := v }
def State.setFb (s : State) (v : Framebuffer) : State := { s with fb := v }
def State.setRedraw (s : State) (v : Bool) : State := { s with redraw := v }
def State.setKeys (s : State) (v : KeySet) : State := { s with keys := v }
def State.setFault (s : State) (v : Option FaultRecord) : State := { s with fault := v }
def State.setDraws (s : State) (v : Nat) : State := { s with draws := v }

/-! ### Memory (20_memory.md) -/

/-- What an address that memory does not list reads as: the contents after `Reset` under the default `FONT`, the font at
[0x000, 0x050) and 0 elsewhere (10_state.md R40). Another `FONT` is listed memory: see `Memory.loadFont`. -/
def Memory.unlisted (a : Nat) : Byte := fontTable.getD a 0#8

/-- `MemRead(a, 1)` (00_scope.md R12). The calling rule has checked `a <= 0xFFF`. -/
def Memory.read : Memory → Nat → Byte
  | [], a => Memory.unlisted a
  | (k, b) :: m, a => if k = a then b else Memory.read m a

/-- The cell `(a, v)` in front of `m`, unless `v` is what `a` reads as unlisted. -/
def Memory.cons (a : Nat) (v : Byte) (m : Memory) : Memory :=
  if v = Memory.unlisted a then m else (a, v) :: m

/-- `MemWrite(a, 1, v)` (R12), keeping the canonical form. The calling rule has checked `a <= 0xFFF`. -/
def Memory.write : Memory → Nat → Byte → Memory
  | [], a, v => Memory.cons a v []
  | (k, b) :: m, a, v =>
    if a < k then Memory.cons a v ((k, b) :: m)
    else if a = k then Memory.cons a v m
    else (k, b) :: Memory.write m a v

/-- Consecutive `MemRead`s from `a` upwards (R63). -/
def Memory.readBytes (m : Memory) (a : Nat) : Nat → List Byte
  | 0 => []
  | n + 1 => Memory.read m a :: Memory.readBytes m (a + 1) n

/-- Consecutive `MemWrite`s from `a` upwards, in ascending address order (R63). -/
def Memory.writeBytes (m : Memory) (a : Nat) : List Byte → Memory
  | [] => m
  | b :: bs => Memory.writeBytes (Memory.write m a b) (a + 1) bs

/-- Cleared memory with a given `FONT` in [0x000, 0x050) (70_reset_and_hazards.md R290). The default font is what unlisted
addresses read as, so under it nothing is listed. -/
def Memory.loadFont (font : Font) : Memory := Memory.writeBytes [] 0 font.toList

/-- The canonical form from address `lo` up: strictly rising addresses below 4096, and no cell equal to what its
address reads as unlisted. -/
def Memory.wfFrom (lo : Nat) : Memory → Bool
  | [] => true
  | (k, b) :: m => decide (lo ≤ k) && decide (k < memSize) && b != Memory.unlisted k && Memory.wfFrom (k + 1) m

/-- Memory is in its one canonical form. -/
def Memory.wf (m : Memory) : Bool := Memory.wfFrom 0 m

/-! ### Registers (10_state.md R21, R22) -/

/-- `V[x]`. No register is hardwired (R21). -/
def State.readV (s : State) (x : Reg) : Byte := s.V[x.val]

/-- `V[x] <- v`. -/
def State.writeV (s : State) (x : Reg) (v : Byte) : State := s.setV (s.V.set x.val v)

/-- VF, the register that is also the flag (R22). -/
def VF : Reg := 15

/-- The registers from number `k` up take the bytes in order; a byte past VF has no register. -/
def State.writeRegs (s : State) (k : Nat) : List Byte → State
  | [] => s
  | b :: bs => State.writeRegs (if h : k < 16 then s.writeV ⟨k, h⟩ b else s) (k + 1) bs

/-- `V[0], ..., V[x]` in order. -/
def State.regsUpTo (s : State) (x : Reg) : List Byte := s.V.toList.take (x.val + 1)

/-! ### Program counter (R25, 30_encoding.md R100) -/

/-- The advance of R100: `pc <- a + 2`. A meaning is given the state before the `Step`, whose `pc` is `a` (log 22). -/
def State.advance (s : State) : State := s.setPc (s.pc + 2)

/-- A skip: a further 2 on top of the advance when the condition holds (40_flow.md R139). -/
def State.skipIf (s : State) (c : Bool) : State := s.setPc (if c then s.pc + 4 else s.pc + 2)

/-! ### Call stack (10_state.md R28, R29) -/

/-- `stack[k] <- w; sp <- k + 1`, where `k` is `sp`: the push of `CALL`. `none` when the entry does not exist. -/
def State.push (s : State) (w : Word) : Option State :=
  if h : s.sp.toNat < 16 then some ((s.setStack (s.stack.set s.sp.toNat w)).setSp (s.sp + 1)) else none

/-- `sp <- sp - 1`, then `stack[sp]`: the pop of `RET`, which leaves the entry in place (R29). `none` when the entry
does not exist. -/
def State.pop (s : State) : Option (Word × State) :=
  (s.stack[(s.sp - 1).toNat]?).map fun w => (w, s.setSp (s.sp - 1))

/-! ### Fetch (20_memory.md R62, R69) -/

/-- The opcode at `pc`, big-endian; `none` when `pc + 1 > 0xFFF`. -/
def State.fetchOpcode (s : State) : Option Word :=
  if s.pc.toNat + 1 > 0xFFF then none
  else some (joinBytes (s.mem.read s.pc.toNat) (s.mem.read (s.pc.toNat + 1)))

/-! ### Fault entry (60_exceptions.md R255)

There is no return from a fault and no handler (R260): the only way out is `Reset`, in Machine/Environment.lean. -/

/-- Taking a fault: `fault` holds the record and every other element keeps the value it had before the operation. -/
def State.takeFault (s : State) (r : FaultRecord) : State := s.setFault (some r)

/-- The fault of an instruction `i` fetched from `pc`: the record carries its opcode and its address (R250). -/
def State.raise (s : State) (kind : FaultKind) (i : Instr) (extra : Option Nat) : Result :=
  .next (s.takeFault ⟨kind, some (encode i), some s.pc, extra⟩)

/-! ### The step cycle (30_encoding.md R100) -/

/-- One cycle, in which `run` executes the decoded instruction: nothing while halted (60_exceptions.md R257), else fetch,
decode, execute, with the faults of R251 and R252. -/
def State.cycle (s : State) (run : Instr → State → Result) : Result :=
  match s.fault with
  | some _ => .next s
  | none =>
    match s.fetchOpcode with
    | none => .next (s.takeFault ⟨.fetchOutOfBounds, none, some s.pc, none⟩)
    | some w =>
      match decodeWord w with
      | .error _ => .next (s.takeFault ⟨.invalidOpcode, some w, some s.pc, none⟩)
      | .ok i => run i s

/-- The numeric code of a fault kind (R250; the spec's own numbers, D14, log 19). -/
def FaultKind.code : FaultKind → Nat
  | .loadError => 1
  | .fetchOutOfBounds => 2
  | .invalidOpcode => 3
  | .stackOverflow => 4
  | .stackUnderflow => 5
  | .memOutOfBounds => 6

end Sys2Proof.Machine
end

