-- ==== Sys2Proof/Machine/Flags.lean ====
section
/-! DEFINITION. The values VF takes as a flag (10_state.md R37, 41_alu.md R162) and the write order, result first and
flag last (41_alu.md R163, 00_scope.md R13, 90_conflicts.md C1). -/

namespace Sys2Proof.Machine

/-- Carry out of an 8-bit addition: the unsigned sum is at least 256 (R162). -/
def carryOut (a b : Byte) : Bool := decide (a.toNat + b.toNat ≥ 256)

/-- No borrow in `a - b`: the minuend is at least the subtrahend (R162). -/
def noBorrow (a b : Byte) : Bool := decide (a.toNat ≥ b.toNat)

/-- The bit a right shift by one shifts out (R158). -/
def shiftedOutRight (a : Byte) : Bool := a.getLsbD 0

/-- The bit a left shift by one shifts out (R160). -/
def shiftedOutLeft (a : Byte) : Bool := a.getLsbD 7

/-- A flag as a register value, 1 or 0. -/
def flagByte (b : Bool) : Byte := if b then 1#8 else 0#8

/-- `VF <- b`. -/
def State.writeFlag (s : State) (b : Bool) : State := s.writeV VF (flagByte b)

/-- `V[x] <- v`, then `VF <- b`: with `x = 0xF` the flag is what remains (R163). -/
def State.writeResultFlag (s : State) (x : Reg) (v : Byte) (b : Bool) : State := (s.writeV x v).writeFlag b

end Sys2Proof.Machine
end

