-- ==== Sys2Proof/Machine/Operands.lean ====
section
/-! DEFINITION. Operand forms: register and immediate sources, zero extension (30_encoding.md R93), and the one data
addressing mode, `I` plus an offset (44_timer_index_memory.md R229). -/

namespace Sys2Proof.Machine

/-- `zext_16(nnn)` (R93). -/
def addrWord (nnn : Addr12) : Word := nnn.setWidth 16

/-- `zext_16(V[x])` (R93). -/
def State.readVWord (s : State) (x : Reg) : Word := (s.readV x).setWidth 16

/-- The first data address, `I`, as an unbounded integer (R229). -/
def State.dataBase (s : State) : Nat := s.I.toNat

/-- The last byte's address when the `m` bytes from `I` do not all lie in memory; `none` when they do, and when
`m = 0` (20_memory.md R70; the fault is the spec's decision D8, log 11). -/
def State.dataOverrun (s : State) (m : Nat) : Option Nat :=
  if m ≥ 1 ∧ s.dataBase + m - 1 > 0xFFF then some (s.dataBase + m - 1) else none

/-- The bound check of R70 in front of an access of `m` bytes by instruction `i`: the fault, with nothing done, or
`access`. -/
def State.withData (s : State) (i : Instr) (m : Nat) (access : Result) : Result :=
  match s.dataOverrun m with
  | some last => s.raise .memOutOfBounds i (some last)
  | none => access

/-- The `m` bytes from `I` (R63). -/
def State.dataBytes (s : State) (m : Nat) : List Byte := s.mem.readBytes s.dataBase m

/-- Store the bytes from `I` up (R63); `I` is unchanged (R229). -/
def State.storeData (s : State) (bs : List Byte) : State := s.setMem (s.mem.writeBytes s.dataBase bs)

/-- The hundreds, tens and ones digits of a byte (R226). -/
def bcdDigits (v : Byte) : List Byte :=
  [BitVec.ofNat 8 (v.toNat / 100), BitVec.ofNat 8 (v.toNat / 10 % 10), BitVec.ofNat 8 (v.toNat % 10)]

end Sys2Proof.Machine
end

