-- ==== Sys2Proof/Machine/Alu.lean ====
section
/-! DEFINITION. The register load, arithmetic, logic, shift and random instructions of 41_alu.md. None can fault and
all leave `pc` at `a + 2`. -/

namespace Sys2Proof.Machine

/-- The result goes to `V[x]`; VF is written only when `x = 0xF`. -/
def State.setResult (s : State) (x : Reg) (v : Byte) : Result := .next (s.writeV x v).advance

/-- The result goes to `V[x]` and the flag to VF, in that order (R163). -/
def State.setResultFlag (s : State) (x : Reg) (v : Byte) (b : Bool) : Result :=
  .next (s.writeResultFlag x v b).advance

/-- `LD Vx,kk` (R150). -/
def execLdImm (x : Reg) (kk : Byte) (s : State) : Result := s.setResult x kk

/-- `ADD Vx,kk` (R151): no flag. -/
def execAddImm (x : Reg) (kk : Byte) (s : State) : Result := s.setResult x (s.readV x + kk)

/-- `LD Vx,Vy` (R152). -/
def execLdReg (x y : Reg) (s : State) : Result := s.setResult x (s.readV y)

/-- `OR Vx,Vy` (R153): VF untouched (D18, log 12). -/
def execOr (x y : Reg) (s : State) : Result := s.setResult x (s.readV x ||| s.readV y)

/-- `AND Vx,Vy` (R154): VF untouched (D18, log 12). -/
def execAnd (x y : Reg) (s : State) : Result := s.setResult x (s.readV x &&& s.readV y)

/-- `XOR Vx,Vy` (R155): VF untouched (D18, log 12). -/
def execXor (x y : Reg) (s : State) : Result := s.setResult x (s.readV x ^^^ s.readV y)

/-- `ADD Vx,Vy` (R156). -/
def execAddReg (x y : Reg) (s : State) : Result :=
  s.setResultFlag x (s.readV x + s.readV y) (carryOut (s.readV x) (s.readV y))

/-- `SUB Vx,Vy` (R157): VF = 1 is no borrow. -/
def execSub (x y : Reg) (s : State) : Result :=
  s.setResultFlag x (s.readV x - s.readV y) (noBorrow (s.readV x) (s.readV y))

/-- `SHR Vx` (R158): `y` is ignored. -/
def execShr (x _y : Reg) (s : State) : Result :=
  s.setResultFlag x (s.readV x >>> 1) (shiftedOutRight (s.readV x))

/-- `SUBN Vx,Vy` (R159): Vy minus Vx. -/
def execSubn (x y : Reg) (s : State) : Result :=
  s.setResultFlag x (s.readV y - s.readV x) (noBorrow (s.readV y) (s.readV x))

/-- `SHL Vx` (R160): `y` is ignored. -/
def execShl (x _y : Reg) (s : State) : Result :=
  s.setResultFlag x (s.readV x <<< 1) (shiftedOutLeft (s.readV x))

/-- R161 for a given draw; one draw is used up (log 2). -/
def rndInto (r : Byte) (x : Reg) (kk : Byte) (s : State) : Result :=
  (s.setDraws (s.draws + 1)).setResult x (r &&& kk)

/-- `RND Vx,kk` (R161): the draw is a free value. -/
def execRnd (x : Reg) (kk : Byte) (s : State) : Result := rndInto (Config.rnd s.draws) x kk s

end Sys2Proof.Machine
end

