-- ==== Sys2Proof/Machine/Display.lean ====
section
/-! DEFINITION. The sprite compositor and the display instructions of 42_display.md. -/

namespace Sys2Proof.Machine

/-- `fb[r][c]` (R180). -/
def Framebuffer.pixel (fb : Framebuffer) (r : Fin 32) (c : Fin 64) : Bool := (fb[r.val])[c.val]

/-- `fb[r][c] <- not fb[r][c]`, the XOR with true (R184). -/
def Framebuffer.toggle (fb : Framebuffer) (r : Fin 32) (c : Fin 64) : Framebuffer :=
  fb.set r.val ((fb[r.val]).set c.val (!Framebuffer.pixel fb r c))

/-- Every pixel false. -/
def Framebuffer.blank : Framebuffer := Vector.replicate 32 (Vector.replicate 64 false)

/-- `(y0 + j) mod 32` (R180, R184). -/
def wrapRow (v : Nat) : Fin 32 := ⟨v % 32, Nat.mod_lt _ (by decide)⟩

/-- `(x0 + i) mod 64` (R180, R184). -/
def wrapCol (v : Nat) : Fin 64 := ⟨v % 64, Nat.mod_lt _ (by decide)⟩

/-- The bit of a sprite byte at horizontal offset `i`: bit `7 - i`, the most significant bit leftmost (R183; D7, G16,
log 15). -/
def spriteBit (row : Byte) (i : Nat) : Bool := row.getLsbD (7 - i)

/-- The framebuffer and the collision noted so far, after one sprite bit at row `r`, column `c` (R184). -/
def plot (d : Framebuffer × Bool) (bit : Bool) (r : Fin 32) (c : Fin 64) : Framebuffer × Bool :=
  if bit then (Framebuffer.toggle d.1 r c, d.2 || Framebuffer.pixel d.1 r c) else d

/-- One row of the sprite: offsets 0 to 7 (R184, the inner loop). -/
def blitRow (x0 : Nat) (r : Fin 32) (row : Byte) (d : Framebuffer × Bool) : Framebuffer × Bool :=
  (List.range 8).foldl (fun d i => plot d (spriteBit row i) r (wrapCol (x0 + i))) d

/-- The rows of the sprite from framebuffer row `y` down (R184, the outer loop). -/
def blitRows (x0 y : Nat) : List Byte → Framebuffer × Bool → Framebuffer × Bool
  | [], d => d
  | row :: rows, d => blitRows x0 (y + 1) rows (blitRow x0 (wrapRow y) row d)

/-- The pixels and the collision of `DrawSprite(x0, y0, rows)`, from no collision (R184). -/
def blitSprite (fb : Framebuffer) (x0 y0 : Nat) (rows : List Byte) : Framebuffer × Bool :=
  blitRows x0 y0 rows (fb, false)

/-- `DrawSprite(x0, y0, rows) -> collision` (R184): the pixels, and `redraw <- 1` unconditionally, also for no rows. -/
def State.drawSprite (s : State) (x0 y0 : Nat) (rows : List Byte) : State × Bool :=
  ((s.setFb (blitSprite s.fb x0 y0 rows).1).setRedraw true, (blitSprite s.fb x0 y0 rows).2)

/-- `CLS` (R181). -/
def execCls (s : State) : Result := .next ((s.setFb Framebuffer.blank).setRedraw true).advance

/-- `DRW Vx,Vy,n` (R182): coordinates are read before VF is written, and VF takes the collision. -/
def execDrw (x y : Reg) (n : Nibble) (s : State) : Result :=
  s.withData (.drw x y n) n.toNat
    (let d := s.drawSprite (s.readV x).toNat (s.readV y).toNat (s.dataBytes n.toNat)
     .next (d.1.writeFlag d.2).advance)

end Sys2Proof.Machine
end

