-- ==== Sys2Proof/Machine/Flow.lean ====
section
/-! DEFINITION. The control-flow instructions of 40_flow.md. Each meaning is given the state before the `Step`: `pc` is
the address `a` the instruction was fetched from. -/

namespace Sys2Proof.Machine

/-- R130 under a given policy. -/
def sysUnder (p : SysPolicy) (nnn : Addr12) (s : State) : Result :=
  match p with
  | .fault => s.raise .invalidOpcode (.sys nnn) none
  | .nop => .next s.advance

/-- `SYS addr` (R130). -/
def execSys (nnn : Addr12) (s : State) : Result := sysUnder sysPolicy nnn s

/-- `RET` (R131). -/
def execRet (s : State) : Result :=
  if s.sp = 0#8 then s.raise .stackUnderflow .ret none
  else
    match s.pop with
    | some (w, t) => .next (t.setPc w)
    | none => .fault .stackEntryAbsent

/-- `JP addr` (R132). -/
def execJp (nnn : Addr12) (s : State) : Result := .next (s.setPc (addrWord nnn))

/-- `CALL addr` (R133): the pushed value is the advanced `pc`. -/
def execCall (nnn : Addr12) (s : State) : Result :=
  if s.sp = 16#8 then s.raise .stackOverflow (.call nnn) none
  else
    match s.push (s.pc + 2) with
    | some t => .next (t.setPc (addrWord nnn))
    | none => .fault .stackEntryAbsent

/-- `SE Vx,kk` (R134). -/
def execSeImm (x : Reg) (kk : Byte) (s : State) : Result := .next (s.skipIf (s.readV x == kk))

/-- `SNE Vx,kk` (R135). -/
def execSneImm (x : Reg) (kk : Byte) (s : State) : Result := .next (s.skipIf (s.readV x != kk))

/-- `SE Vx,Vy` (R136). -/
def execSeReg (x y : Reg) (s : State) : Result := .next (s.skipIf (s.readV x == s.readV y))

/-- `SNE Vx,Vy` (R137). -/
def execSneReg (x y : Reg) (s : State) : Result := .next (s.skipIf (s.readV x != s.readV y))

/-- `JP V0,addr` (R138): the 16-bit sum, not reduced to 12 bits (D17, log 14). -/
def execJpV0 (nnn : Addr12) (s : State) : Result := .next (s.setPc (addrWord nnn + s.readVWord 0))

end Sys2Proof.Machine
end

