-- ==== Sys2Proof/Machine/Keyboard.lean ====
section
/-! DEFINITION. The key queries and the key instructions of 43_keyboard.md. -/

namespace Sys2Proof.Machine

/-- `k in keys` for a logical key. -/
def KeySet.holds (ks : KeySet) (k : Key) : Bool := ks[k.val]

/-- `IsPressed(k)` for a byte: false for every value above 15, which is not reduced to 4 bits (R202). -/
def KeySet.isPressed (ks : KeySet) (k : Byte) : Bool := if h : k.toNat < 16 then ks[k.toNat] else false

/-- The held keys in ascending order. -/
def KeySet.held (ks : KeySet) : List Key := (List.finRange 16).filter fun k => KeySet.holds ks k

/-- The `d`-th member, counting round, of the held keys `k :: rest`: as `d` runs over the numbers every held key is
taken, so an unconstrained `d` is an unconstrained `pick` (R205, D11, log 2). -/
def pickKey (d : Nat) (k : Key) (rest : List Key) : Key := (k :: rest).getD (d % (rest.length + 1)) k

/-- A logical key as a register value, 0 to 15. -/
def keyByte (k : Key) : Byte := BitVec.ofNat 8 k.val

/-- `SKP Vx` (R203). -/
def execSkp (x : Reg) (s : State) : Result := .next (s.skipIf (KeySet.isPressed s.keys (s.readV x)))

/-- `SKNP Vx` (R204). -/
def execSknp (x : Reg) (s : State) : Result := .next (s.skipIf (!KeySet.isPressed s.keys (s.readV x)))

/-- R205 for a given draw: with no key held nothing changes, `pc` included; otherwise a held key is loaded and one
draw is used up (log 2). -/
def waitKey (d : Nat) (x : Reg) (s : State) : Result :=
  match KeySet.held s.keys with
  | [] => .next s
  | k :: rest => .next ((s.setDraws (s.draws + 1)).writeV x (keyByte (pickKey d k rest))).advance

/-- `LD Vx,K` (R205): the draw is a free value. There is no "awaiting key" flag (D22, C4, log 21). -/
def execLdVxK (x : Reg) (s : State) : Result := waitKey (Config.pick s.draws) x s

end Sys2Proof.Machine
end

