-- ==== Sys2Proof/Machine/MemoryAtI.lean ====
section
/-! DEFINITION. The instructions that access memory at `I`, of 44_timer_index_memory.md. `I` is unchanged by each. -/

namespace Sys2Proof.Machine

/-- `LD B,Vx` (R226). -/
def execLdB (x : Reg) (s : State) : Result :=
  s.withData (.ldB x) 3 (.next (s.storeData (bcdDigits (s.readV x))).advance)

/-- `LD [I],Vx` (R227): V0 to Vx inclusive. -/
def execStoreRegs (x : Reg) (s : State) : Result :=
  s.withData (.storeRegs x) (x.val + 1) (.next (s.storeData (s.regsUpTo x)).advance)

/-- `LD Vx,[I]` (R228): V0 to Vx inclusive. -/
def execLoadRegs (x : Reg) (s : State) : Result :=
  s.withData (.loadRegs x) (x.val + 1) (.next (s.writeRegs 0 (s.dataBytes (x.val + 1))).advance)

end Sys2Proof.Machine
end

