-- ==== Sys2Proof/Machine/TimerIndex.lean ====
section
/-! DEFINITION. The timer moves and the index-register instructions of 44_timer_index_memory.md. -/

namespace Sys2Proof.Machine

/-- `LD Vx,DT` (R220). -/
def execLdVxDt (x : Reg) (s : State) : Result := .next (s.writeV x s.DT).advance

/-- `LD DT,Vx` (R221). -/
def execLdDtVx (x : Reg) (s : State) : Result := .next (s.setDT (s.readV x)).advance

/-- `LD ST,Vx` (R222). -/
def execLdStVx (x : Reg) (s : State) : Result := .next (s.setST (s.readV x)).advance

/-- `LD I,addr` (R223). -/
def execLdI (nnn : Addr12) (s : State) : Result := .next (s.setI (addrWord nnn)).advance

/-- `ADD I,Vx` (R224): modulo 65536, VF untouched (D9, log 12). -/
def execAddI (x : Reg) (s : State) : Result := .next (s.setI (s.I + s.readVWord x)).advance

/-- `LD F,Vx` (R225): the whole register value times 5, no masking (D10, log 13). -/
def execLdF (x : Reg) (s : State) : Result :=
  .next (s.setI (s.readVWord x * BitVec.ofNat 16 glyphSize)).advance

end Sys2Proof.Machine
end

