-- ==== Sys2Proof/Machine/Step.lean ====
section
/-! DEFINITION. One `Step` (30_encoding.md R100), and where the next instruction's word stands. -/

namespace Sys2Proof.Machine

/-- `Step(rnd, pick)` (R100). The draws are free values read by the two meanings that use one (log 1); `Block.step` is
the same cycle with the draws as arguments. -/
def step (s : State) : Host.Outcome State Fault Refusal := s.cycle exec

/-- `s` with the instruction whose bits are `w` (bits above `nbits` zero) stored at `pc`, big-endian, where `step`
fetches. It stands for the load of a program from outside (log 17). With `pc` above 0xFFE nothing can be fetched and
nothing is stored. -/
def State.withFetchWord (s : State) (nbits w : Nat) : State :=
  let v : Word := BitVec.ofNat 16 (w % 2 ^ nbits)
  if s.pc.toNat + 1 > 0xFFF then s else s.setMem (s.mem.writeBytes s.pc.toNat [highByte v, lowByte v])

end Sys2Proof.Machine
end

