-- ==== Sys2Proof/Machine/Environment.lean ====
section
/-! DEFINITION. The five operations of 00_scope.md R6 beside `Step`, the serial composition of all six, and the outputs
of 10_state.md R41. The schedule is free (00_scope.md R7, D2): it is any list of operations. -/

namespace Sys2Proof.Machine

/-- `Reset` under a given `FONT` (70_reset_and_hazards.md R290, R8): memory cleared and the font loaded, and every other
element of the spec at its reset value, whatever it was. The model's own count of draws goes on, so that no draw comes
twice (log 3). -/
def resetUnder (font : Font) (s : State) : State :=
  (State.reset.setMem (Memory.loadFont font)).setDraws s.draws

/-- `Reset` (R290) under the default `FONT`. -/
def resetOp (s : State) : State := resetUnder defaultFont s

/-- `LoadProgram(bytes)` (R293, 60_exceptions.md R258). -/
def loadProgram (bytes : List Byte) (s : State) : State :=
  if s.fault.isSome then s
  else if bytes.length > maxRom then s.takeFault ⟨.loadError, none, none, some bytes.length⟩
  else s.setMem (s.mem.writeBytes progBase bytes)

/-- A timer's decrement, clamped at 0 (60_exceptions.md R261). -/
def countDown (t : Byte) : Byte := if t = 0#8 then 0#8 else t - 1

/-- `Tick` (R261): the state after it, and the buzz bit (R262). -/
def tick (s : State) : State × Bool :=
  if s.fault.isSome then (s, false)
  else ((s.setDT (countDown s.DT)).setST (countDown s.ST), s.ST != 0#8)

/-- The buzz bits of `n` consecutive `Tick`s, and the state after them. -/
def ticks : Nat → State → List Bool × State
  | 0, s => ([], s)
  | n + 1, s => ((tick s).2 :: (ticks n (tick s).1).1, (ticks n (tick s).1).2)

/-- The set of the given logical keys. -/
def KeySet.ofKeys : List Key → KeySet
  | [] => Vector.replicate 16 false
  | k :: ks => (KeySet.ofKeys ks).set k.val true

/-- `KeyUpdate(pressed)` under a given `KEYMAP` (43_keyboard.md R201): a full replace. -/
def keyUpdateUnder (keymap : HostKey → Option Key) (pressed : List HostKey) (s : State) : State :=
  if s.fault.isSome then s else s.setKeys (KeySet.ofKeys (pressed.filterMap keymap))

/-- `KeyUpdate(pressed)` (R201). -/
def keyUpdate (pressed : List HostKey) (s : State) : State := keyUpdateUnder Config.keymap pressed s

/-- `RedrawAck` (42_display.md R186). -/
def redrawAck (s : State) : State := if s.fault.isSome then s else s.setRedraw false

/-- The six operations (00_scope.md R6). -/
inductive Op where
  | reset
  | loadProgram (bytes : List Byte)
  | step
  | tick
  | keyUpdate (pressed : List HostKey)
  | redrawAck
  deriving DecidableEq, Repr

/-- One operation, atomic (R6), of a block with a given `FONT`, which `Reset` alone reads. -/
def performUnder (font : Font) (o : Op) (s : State) : Result :=
  match o with
  | .reset => .next (resetUnder font s)
  | .loadProgram bytes => .next (loadProgram bytes s)
  | .step => step s
  | .tick => .next (tick s).1
  | .keyUpdate pressed => .next (keyUpdate pressed s)
  | .redrawAck => .next (redrawAck s)

/-- One operation under the default `FONT`. -/
def perform (o : Op) (s : State) : Result := performUnder defaultFont o s

/-- A serial schedule of operations (R6, R7) of a block with a given `FONT`. -/
def performAllUnder (font : Font) : List Op → State → Result
  | [], s => .next s
  | o :: os, s =>
    match performUnder font o s with
    | .next t => performAllUnder font os t
    | .fault r => .fault r
    | .refused r => .refused r

/-- A serial schedule under the default `FONT`. -/
def performAll (os : List Op) (s : State) : Result := performAllUnder defaultFont os s

/-- What the environment can read between operations (42_display.md R187, 60_exceptions.md R274). -/
structure Outputs where
  fb     : Framebuffer
  redraw : Bool
  fault  : Option FaultRecord
  deriving DecidableEq, Repr

def State.outputs (s : State) : Outputs := ⟨s.fb, s.redraw, s.fault⟩

end Sys2Proof.Machine
end

