-- ==== Sys2Proof/Machine/BlockOps.lean ====
section
/-! DEFINITION. The machine as the spec gives it: the six operations of 00_scope.md R6 over a state of exactly the twelve
elements of 10_state.md R20, with the two draws of `Step(rnd, pick)` as its inputs (R9, R38), and schedules in which every
operation is given draws of its own. `Machine.step` is `Block.step` with the draws taken from Config (log 1). -/

namespace Sys2Proof.Machine

abbrev BlockResult := Host.Outcome Block Fault Refusal

/-- A block with a record of draws beside it, as the shared operations take it. No operation over blocks reads it. -/
def Block.withDraws (b : Block) (n : Nat) : State := { toBlock := b, draws := n }

/-- The block of an outcome. -/
def blockOf : Result → BlockResult
  | .next s => .next s.toBlock
  | .fault r => .fault r
  | .refused r => .refused r

/-- The meaning of `i` for given draws: `RND` uses `rnd`, `LD Vx,K` uses `pick`, and every other instruction ignores both
(R9). `pick` is a number that is reduced to one of the held keys (log 2). -/
def execWith (rnd : Byte) (pick : Nat) (i : Instr) (s : State) : Result :=
  match i with
  | .rnd x kk => rndInto rnd x kk s
  | .ldVxK x => waitKey pick x s
  | .cls | .ret | .sys _ | .jp _ | .call _ | .seImm _ _ | .sneImm _ _ | .seReg _ _ | .ldImm _ _ | .addImm _ _
  | .ldReg _ _ | .orReg _ _ | .andReg _ _ | .xorReg _ _ | .addReg _ _ | .subReg _ _ | .shr _ _ | .subnReg _ _
  | .shl _ _ | .sneReg _ _ | .ldI _ | .jpV0 _ | .drw _ _ _ | .skp _ | .sknp _ | .ldVxDt _ | .ldDtVx _ | .ldStVx _
  | .addI _ | .ldF _ | .ldB _ | .storeRegs _ | .loadRegs _ => exec i s

/-- The block right after `Reset` (R40). -/
def Block.initial : Block := State.reset.toBlock

/-- `Reset` (70_reset_and_hazards.md R290) of a block with a given `FONT`. -/
def Block.reset (font : Font) (b : Block) : Block := (resetUnder font (b.withDraws 0)).toBlock

/-- `LoadProgram(bytes)` (R293). -/
def Block.loadProgram (bytes : List Byte) (b : Block) : Block :=
  (Machine.loadProgram bytes (b.withDraws 0)).toBlock

/-- `Step(rnd, pick)` (30_encoding.md R100). -/
def Block.step (rnd : Byte) (pick : Nat) (b : Block) : BlockResult :=
  blockOf ((b.withDraws 0).cycle (execWith rnd pick))

/-- `Tick` (60_exceptions.md R261): the block after it, and the buzz bit. -/
def Block.tick (b : Block) : Block × Bool :=
  ((Machine.tick (b.withDraws 0)).1.toBlock, (Machine.tick (b.withDraws 0)).2)

/-- `KeyUpdate(pressed)` under a given `KEYMAP` (43_keyboard.md R201). -/
def Block.keyUpdate (keymap : HostKey → Option Key) (pressed : List HostKey) (b : Block) : Block :=
  (keyUpdateUnder keymap pressed (b.withDraws 0)).toBlock

/-- `RedrawAck` (42_display.md R186). -/
def Block.redrawAck (b : Block) : Block := (Machine.redrawAck (b.withDraws 0)).toBlock

/-- One operation, atomic (R6), of a block with a given `FONT`; the draws are those of a `Step`. -/
def Block.perform (font : Font) (rnd : Byte) (pick : Nat) (o : Op) (b : Block) : BlockResult :=
  match o with
  | .reset => .next (b.reset font)
  | .loadProgram bytes => .next (b.loadProgram bytes)
  | .step => b.step rnd pick
  | .tick => .next b.tick.1
  | .keyUpdate pressed => .next (b.keyUpdate Config.keymap pressed)
  | .redrawAck => .next b.redrawAck

/-- A serial schedule of operations (R6, R7), each with the draws it is given. -/
def Block.performAll (font : Font) : List (Op × Byte × Nat) → Block → BlockResult
  | [], b => .next b
  | (o, rnd, pick) :: os, b =>
    match b.perform font rnd pick o with
    | .next c => Block.performAll font os c
    | .fault r => .fault r
    | .refused r => .refused r

end Sys2Proof.Machine
end

