-- ==== Sys2Proof/Safety.lean ====
section
/-! DEFINITION. What counts as a safe state and a safe run, and the words in which claims state what an operation
leaves unchanged. -/

namespace Sys2Proof.Machine

/-- The block is running: no fault is recorded (10_state.md R36). A halted block is never a successful end (R257). -/
abbrev Block.Running (s : Block) : Prop := s.fault = none

/-- The fields of a record are those of its kind's row in 60_exceptions.md R250. -/
def FaultRecord.legal (r : FaultRecord) : Bool :=
  match r.kind, r.opcode, r.addr, r.extra with
  | .loadError, none, none, some len => decide (len > maxRom)
  | .fetchOutOfBounds, none, some a, none => decide (a.toNat + 1 > 0xFFF)
  | .invalidOpcode, some _, some a, none => decide (a.toNat ≤ 0xFFE)
  | .stackOverflow, some w, some a, none => opField w == 0x2#4 && decide (a.toNat ≤ 0xFFE)
  | .stackUnderflow, some w, some a, none => w == 0x00EE#16 && decide (a.toNat ≤ 0xFFE)
  | .memOutOfBounds, some _, some a, some last => decide (last > 0xFFF) && decide (a.toNat ≤ 0xFFE)
  | _, _, _, _ => false

/-- The invariant of the block. `sp` is in 0..16 (10_state.md R28); `pc` is at most 0x10FE (R27); every stack entry
is at most 0x1000, and one that `sp` counts is at least 2 (40_flow.md R131); a recorded fault has a shape of
60_exceptions.md R250; memory is in its canonical form (the model's own, log 17). A `State` meets it when its block does. -/
abbrev Block.Inv (s : Block) : Prop :=
  s.mem.wf = true ∧
  s.sp.toNat ≤ 16 ∧
  s.pc.toNat ≤ 0x10FE ∧
  (∀ k : Fin 16, (s.stack[k.val]).toNat ≤ 0x1000) ∧
  (∀ k : Fin 16, k.val < s.sp.toNat → 2 ≤ (s.stack[k.val]).toNat) ∧
  (∀ r, s.fault = some r → r.legal = true)

/-- What a claim lets an operation change, `pc` apart, which each claim states for itself: `regs` the general
registers, `mem` the addresses stored to, and the other elements by name. -/
structure Touches where
  regs   : List Reg := []
  I      : Bool := false
  sp     : Bool := false
  stack  : Bool := false
  DT     : Bool := false
  ST     : Bool := false
  mem    : List Nat := []
  fb     : Bool := false
  redraw : Bool := false
  keys   : Bool := false
  fault  : Bool := false
  draws  : Bool := false
  deriving DecidableEq, Repr

/-- From `s` to `t` everything that `w` does not name keeps its value: every other register, every byte of memory at
another address, every other element. -/
def Touches.only (w : Touches) (s t : State) : Prop :=
  (∀ r : Reg, r ∉ w.regs → t.readV r = s.readV r) ∧
  (w.I = false → t.I = s.I) ∧
  (w.sp = false → t.sp = s.sp) ∧
  (w.stack = false → t.stack = s.stack) ∧
  (w.DT = false → t.DT = s.DT) ∧
  (w.ST = false → t.ST = s.ST) ∧
  (∀ a : Nat, a ∉ w.mem → t.mem.read a = s.mem.read a) ∧
  (w.fb = false → t.fb = s.fb) ∧
  (w.redraw = false → t.redraw = s.redraw) ∧
  (w.keys = false → t.keys = s.keys) ∧
  (w.fault = false → t.fault = s.fault) ∧
  (w.draws = false → t.draws = s.draws)

/-- What each instruction may change, `pc` apart: its destination registers (10_state.md R23, "writes"), the flag
VF (R37), the stack and `sp` (R28, R29), `I` (R24), the timers (R30, R31), the bytes it stores (20_memory.md R63), the
display (R33, R34), the model's count of draws, and `fault` for the seven instructions that can raise one
(60_exceptions.md R259). -/
def touchesOf (i : Instr) (s : State) : Touches :=
  match i with
  | .cls => { fb := true, redraw := true }
  | .ret => { sp := true, fault := true }
  | .sys _ => { fault := true }
  | .jp _ | .jpV0 _ | .seImm _ _ | .sneImm _ _ | .seReg _ _ | .sneReg _ _ | .skp _ | .sknp _ => {}
  | .call _ => { sp := true, stack := true, fault := true }
  | .ldImm x _ | .addImm x _ | .ldReg x _ | .orReg x _ | .andReg x _ | .xorReg x _ | .ldVxDt x => { regs := [x] }
  | .addReg x _ | .subReg x _ | .shr x _ | .subnReg x _ | .shl x _ => { regs := [x, VF] }
  | .rnd x _ | .ldVxK x => { regs := [x], draws := true }
  | .drw _ _ _ => { regs := [VF], fb := true, redraw := true, fault := true }
  | .ldDtVx _ => { DT := true }
  | .ldStVx _ => { ST := true }
  | .ldI _ | .addI _ | .ldF _ => { I := true }
  | .ldB _ => { mem := (List.range 3).map (s.dataBase + ·), fault := true }
  | .storeRegs x => { mem := (List.range (x.val + 1)).map (s.dataBase + ·), fault := true }
  | .loadRegs x => { regs := (List.finRange 16).filter (· ≤ x), fault := true }

/-- The registers each instruction reads (10_state.md R23, "reads"). -/
def regsRead : Instr → List Reg
  | .cls | .ret | .sys _ | .jp _ | .call _ | .ldI _ | .ldImm _ _ | .rnd _ _ | .ldVxDt _ | .ldVxK _ | .loadRegs _ => []
  | .seImm x _ | .sneImm x _ | .addImm x _ | .shr x _ | .shl x _ | .skp x | .sknp x | .ldDtVx x | .ldStVx x
  | .addI x | .ldF x | .ldB x => [x]
  | .ldReg _ y => [y]
  | .seReg x y | .sneReg x y | .orReg x y | .andReg x y | .xorReg x y | .addReg x y | .subReg x y | .subnReg x y
  | .drw x y _ => [x, y]
  | .jpV0 _ => [0]
  | .storeRegs x => (List.finRange 16).filter (· ≤ x)

/-- The one fault each instruction can raise, if any (60_exceptions.md R259). -/
def faultOf : Instr → Option FaultKind
  | .sys _ => some .invalidOpcode
  | .ret => some .stackUnderflow
  | .call _ => some .stackOverflow
  | .drw _ _ _ | .ldB _ | .storeRegs _ | .loadRegs _ => some .memOutOfBounds
  | .cls | .jp _ | .seImm _ _ | .sneImm _ _ | .seReg _ _ | .ldImm _ _ | .addImm _ _ | .ldReg _ _ | .orReg _ _
  | .andReg _ _ | .xorReg _ _ | .addReg _ _ | .subReg _ _ | .shr _ _ | .subnReg _ _ | .shl _ _ | .sneReg _ _
  | .ldI _ | .jpV0 _ | .rnd _ _ | .skp _ | .sknp _ | .ldVxDt _ | .ldVxK _ | .ldDtVx _ | .ldStVx _ | .addI _
  | .ldF _ => none

/-- How many data bytes from `I` each instruction accesses (20_memory.md R65, R70); `none` for the others. -/
def dataLength : Instr → Option Nat
  | .drw _ _ n => some n.toNat
  | .ldB _ => some 3
  | .storeRegs x | .loadRegs x => some (x.val + 1)
  | .cls | .ret | .sys _ | .jp _ | .call _ | .seImm _ _ | .sneImm _ _ | .seReg _ _ | .ldImm _ _ | .addImm _ _
  | .ldReg _ _ | .orReg _ _ | .andReg _ _ | .xorReg _ _ | .addReg _ _ | .subReg _ _ | .shr _ _ | .subnReg _ _
  | .shl _ _ | .sneReg _ _ | .ldI _ | .jpV0 _ | .rnd _ _ | .skp _ | .sknp _ | .ldVxDt _ | .ldVxK _ | .ldDtVx _
  | .ldStVx _ | .addI _ | .ldF _ => none

/-- `pc` after each instruction that does not fault, `s` being the state before and `s.pc` its address `a`: the table
of 10_state.md R26. -/
def pcAfter (i : Instr) (s : State) : Nat :=
  let a := s.pc.toNat
  match i with
  | .jp nnn | .call nnn => nnn.toNat
  | .ret => (s.stack.toList.getD (s.sp.toNat - 1) 0#16).toNat
  | .jpV0 nnn => nnn.toNat + (s.readV 0).toNat
  | .seImm x kk => if s.readV x = kk then a + 4 else a + 2
  | .sneImm x kk => if s.readV x ≠ kk then a + 4 else a + 2
  | .seReg x y => if s.readV x = s.readV y then a + 4 else a + 2
  | .sneReg x y => if s.readV x ≠ s.readV y then a + 4 else a + 2
  | .skp x => if ∃ k : Key, KeySet.holds s.keys k = true ∧ (s.readV x).toNat = k.val then a + 4 else a + 2
  | .sknp x => if ∃ k : Key, KeySet.holds s.keys k = true ∧ (s.readV x).toNat = k.val then a + 2 else a + 4
  | .ldVxK _ => if ∃ k : Key, KeySet.holds s.keys k = true then a + 2 else a
  | .cls | .sys _ | .ldImm _ _ | .addImm _ _ | .ldReg _ _ | .orReg _ _ | .andReg _ _ | .xorReg _ _ | .addReg _ _
  | .subReg _ _ | .shr _ _ | .subnReg _ _ | .shl _ _ | .ldI _ | .rnd _ _ | .drw _ _ _ | .ldVxDt _ | .ldDtVx _
  | .ldStVx _ | .addI _ | .ldF _ | .ldB _ | .storeRegs _ | .loadRegs _ => a + 2

/-- The outcome with `f` applied to its next state. -/
def mapNext (f : State → State) : Result → Result
  | .next s => .next (f s)
  | .fault r => .fault r
  | .refused r => .refused r

/-- Some bit of the sprite is 1 at the pixel in row `r`, column `c`: bit `7 - i` of byte `j` lands in row
`(y0 + j) mod 32`, column `(x0 + i) mod 64` (42_display.md R183, R184). -/
def SpriteLit (rows : List Byte) (x0 y0 : Nat) (r : Fin 32) (c : Fin 64) : Prop :=
  ∃ j i : Nat, j < rows.length ∧ i < 8 ∧ (rows.getD j 0#8).getLsbD (7 - i) = true ∧
    r.val = (y0 + j) % 32 ∧ c.val = (x0 + i) % 64

/-- `fb'` is `fb` with exactly the sprite's 1 bits exclusive-ored in (R184). -/
def Composed (fb fb' : Framebuffer) (rows : List Byte) (x0 y0 : Nat) : Prop :=
  ∀ (r : Fin 32) (c : Fin 64),
    (SpriteLit rows x0 y0 r c → Framebuffer.pixel fb' r c = !Framebuffer.pixel fb r c) ∧
    (¬ SpriteLit rows x0 y0 r c → Framebuffer.pixel fb' r c = Framebuffer.pixel fb r c)

/-- Some 1 bit of the sprite meets a pixel that was already on (R184). -/
def Collides (fb : Framebuffer) (rows : List Byte) (x0 y0 : Nat) : Prop :=
  ∃ (r : Fin 32) (c : Fin 64), SpriteLit rows x0 y0 r c ∧ Framebuffer.pixel fb r c = true

/-- Two states that agree in everything but stack entries that `sp` does not count (10_state.md R29). -/
def SameButStale (s t : State) : Prop :=
  t = s.setStack t.stack ∧ ∀ k : Fin 16, k.val < s.sp.toNat → t.stack[k.val] = s.stack[k.val]

/-- Every word that matches `mask` and `pat` decodes to the instruction `make` builds from the word's own fields. -/
def DecodesAs (mask pat : Word) (make : Word → Instr) : Prop :=
  ∀ w : Word, w &&& mask = pat → decodeWord w = .ok (make w)

end Sys2Proof.Machine
end

