-- ==== Sys2Proof/Certificates/Slice0/Obligations.lean ====
section
/-! DEFINITION. The statements for the provers. Each docstring names the rule of the spec it formalises, or, where a
clause rests on a decision the spec marks as its own, that decision and the assumption log's entry. -/

open Sys2Proof Sys2Proof.Machine

/-! ### Encoding -/

/-- Words the source itself prints (95_test_vectors.md S1, S2), and one of each other format, written out in bits from
30_encoding.md R92, decode to the instruction they stand for. -/
def Obligations.PrintedWordsDecode : Prop :=
  decodeWord 0x00E0#16 = .ok .cls ∧
  decodeWord 0x6A02#16 = .ok (.ldImm 0xA 0x02#8) ∧
  decodeWord 0x6B03#16 = .ok (.ldImm 0xB 0x03#8) ∧
  decodeWord 0x8AB4#16 = .ok (.addReg 0xA 0xB) ∧
  decodeWord 0xD015#16 = .ok (.drw 0 1 5#4) ∧
  decodeWord 0b0010101010111100#16 = .ok (.call 0xABC#12) ∧
  decodeWord 0b1111001100110011#16 = .ok (.ldB 3) ∧
  decodeBytes [0x81#8, 0x2E#8, 0xFF#8] = .ok (.shl 1 2, [0xFF#8])

/-- Every well-formed instruction, with every operand at every value, decodes back from its word and from its bytes
(R91, R92, R101; the patterns are partly the spec's own, D3, log 8). -/
def Obligations.DecodeOfEncodeIsTheInstruction : Prop :=
  ∀ i : Instr, i.wellFormed = true →
    decodeWord (encode i) = .ok i ∧ ∀ rest : List Byte, decodeBytes (encodeBytes i ++ rest) = .ok (i, rest)

/-- A word that decodes has one meaning, which is well formed and encodes to that word: no bit is dropped (R91, R92). -/
def Obligations.EncodeOfDecodeIsTheWord : Prop :=
  ∀ (w : Word) (i : Instr), decodeWord w = .ok i → i.wellFormed = true ∧ encode i = w

/-- R101: an opcode selects the first row of the opcode map whose pattern it matches; two different rows admit one
opcode only where the opcode is 0x00E0 or 0x00EE and one of the rows is SYS. -/
def Obligations.DecodeSelectsTheFirstMatchingRow : Prop :=
  (∀ w : Word,
    (match decodeWord w with
      | .ok i => some i.mnemonic
      | .error _ => none) = (opcodeRows.find? (fun r => r.admits w)).map OpcodeRow.mnemonic) ∧
  (∀ (w : Word) (p q : OpcodeRow), p ∈ opcodeRows → q ∈ opcodeRows → p ≠ q → p.admits w = true → q.admits w = true →
    (w = 0x00E0#16 ∨ w = 0x00EE#16) ∧ (p.mnemonic = "SYS_addr" ∨ q.mnemonic = "SYS_addr"))

/-- The invalid opcodes are exactly the five classes of 30_encoding.md section 4 (R115; strict matching is the spec's
decision D5, log 14). -/
def Obligations.InvalidOpcodesAreTheFiveClasses : Prop :=
  ∀ w : Word,
    decodeWord w = .error (.invalidOpcode w) ↔
      ((opField w = 0x5#4 ∧ nField w ≠ 0#4) ∨
       (opField w = 0x8#4 ∧ nField w ∈ [0x8#4, 0x9#4, 0xA#4, 0xB#4, 0xC#4, 0xD#4, 0xF#4]) ∨
       (opField w = 0x9#4 ∧ nField w ≠ 0#4) ∨
       (opField w = 0xE#4 ∧ kkField w ∉ [0x9E#8, 0xA1#8]) ∨
       (opField w = 0xF#4 ∧
         kkField w ∉ [0x07#8, 0x0A#8, 0x15#8, 0x18#8, 0x1E#8, 0x29#8, 0x33#8, 0x55#8, 0x65#8]))

/-! ### The step cycle and the faults -/

/-- When the two bytes at `pc` decode to `i`, a step of the running block is `exec i` at that same state: the meaning
itself moves `pc` past the instruction's two bytes (log 22). -/
def Obligations.StepRunsTheDecodedInstruction : Prop :=
  ∀ (s : State) (i : Instr) (rest : List Byte), s.fault = none → s.pc.toNat ≤ 0xFFE →
    decodeBytes (s.mem.readBytes s.pc.toNat 2) = .ok (i, rest) → step s = exec i s

/-- R100 with R62 and R69: nothing while halted; otherwise the fetch bound, the big-endian opcode, and the decoded
instruction or InvalidOpcode, in that order. -/
def Obligations.StepFetchesDecodesAndExecutes : Prop :=
  ∀ s : State,
    (s.fault ≠ none → step s = .next s) ∧
    (s.fault = none → s.pc.toNat + 1 > 0xFFF →
      step s = .next (s.setFault (some ⟨.fetchOutOfBounds, none, some s.pc, none⟩))) ∧
    (s.fault = none → s.pc.toNat + 1 ≤ 0xFFF → ∀ w : Word,
      w.toNat = 256 * (s.mem.read s.pc.toNat).toNat + (s.mem.read (s.pc.toNat + 1)).toNat →
      ((∀ i, decodeWord w ≠ .ok i) → step s = .next (s.setFault (some ⟨.invalidOpcode, some w, some s.pc, none⟩))) ∧
      (∀ i, decodeWord w = .ok i → step s = exec i s))

/-- A fetched opcode that matches none of the 35 patterns, and SYS under the default policy, make the step record
InvalidOpcode with the opcode and the address it was fetched from (60_exceptions.md section 1, R252; strict matching and
the policy are the spec's D5 and D4, log 14, log 6). -/
def Obligations.UnmatchedOpcodesAndSysRaiseInvalidOpcode : Prop :=
  ∀ (s : State) (w : Word), s.fault = none → s.fetchOpcode = some w →
    ((∀ r ∈ opcodeRows, r.admits w = false) ∨ (opField w = 0x0#4 ∧ w ≠ 0x00E0#16 ∧ w ≠ 0x00EE#16)) →
    step s = .next (s.setFault (some ⟨.invalidOpcode, some w, some s.pc, none⟩))

/-- A halted block, whatever its FONT: every operation but Reset has no effect and a tick gives no buzz; Reset clears the
fault (60_exceptions.md section 2, R257; the spec's decision D13, log 21). -/
def Obligations.HaltedBlockIsFrozenUntilReset : Prop :=
  ∀ (font : Font) (s : State) (o : Op), s.fault ≠ none →
    (o ≠ .reset → performUnder font o s = .next s) ∧ (tick s).2 = false ∧
    ∃ t, performUnder font .reset s = .next t ∧ t.fault = none

/-- A step or a load that records a fault changes nothing else, and a step's record, unless the fetch failed, carries
the address the instruction was fetched from (60_exceptions.md section 2, R255; the spec's decision D13, log 21). -/
def Obligations.FaultsArePrecise : Prop :=
  (∀ (s t : State) (r : FaultRecord), s.fault = none → step s = .next t → t.fault = some r →
    t = s.setFault (some r) ∧ r.addr = some s.pc ∧ (r.kind ≠ .fetchOutOfBounds → r.opcode = s.fetchOpcode)) ∧
  (∀ (s : State) (bytes : List Byte) (r : FaultRecord), s.fault = none → (loadProgram bytes s).fault = some r →
    loadProgram bytes s = s.setFault (some r))

/-- An instruction that records a fault records the one fault it can raise, with its own opcode and address; the 28
others raise none (60_exceptions.md sections 1 and 2, R250, R259; codes and record are the spec's D14, log 19). -/
def Obligations.EachInstructionRaisesOnlyItsFault : Prop :=
  ∀ (i : Instr) (s t : State) (r : FaultRecord), s.fault = none → exec i s = .next t → t.fault = some r →
    faultOf i = some r.kind ∧ r.opcode = some (encode i) ∧ r.addr = some s.pc ∧
    (∀ last, r.extra = some last ↔ ∃ m, dataLength i = some m ∧ last = s.dataBase + m - 1)

/-- The four instructions that access memory at `I` fault, with nothing done, exactly when their last byte lies above
0xFFF; with no byte to access they cannot fault (20_memory.md section 5, R70; the spec's decision D8, log 11). -/
def Obligations.DataAccessAboveMemoryFaults : Prop :=
  ∀ (i : Instr) (m : Nat) (s : State), dataLength i = some m → s.fault = none →
    (m ≥ 1 ∧ s.I.toNat + m - 1 > 0xFFF →
      exec i s = .next (s.setFault (some ⟨.memOutOfBounds, some (encode i), some s.pc, some (s.I.toNat + m - 1)⟩))) ∧
    (m = 0 ∨ s.I.toNat + m - 1 ≤ 0xFFF → ∃ t, exec i s = .next t ∧ t.fault = none)

/-! ### Invariants -/

/-- Reset, under any FONT and from any state, gives a state that meets the invariant. -/
def Obligations.ResetMeetsTheInvariant : Prop :=
  State.reset.Inv ∧ ∀ (font : Font) (s : State), (resetUnder font s).Inv

/-- From every state that meets the invariant a step answers a next state, never a stop of the model, and that state
meets the invariant: memory canonical, `sp` in 0..16 (10_state.md R28), `pc` at most 0x10FE (R27), stack entries in
range (40_flow.md R131), a recorded fault of a legal shape (60_exceptions.md R250). -/
def Obligations.StepAnswersAndKeepsTheInvariant : Prop :=
  ∀ s : State, s.Inv → ∃ t, step s = .next t ∧ t.Inv

/-- Every serial schedule of the six operations, in any order and under any FONT, runs to its end and keeps the
invariant (00_scope.md R6, R7): the host's machine with its free draws, and the block alone under every sequence of
draws. -/
def Obligations.EveryScheduleKeepsTheInvariant : Prop :=
  (∀ (font : Font) (os : List Op) (s : State), s.Inv → ∃ t, performAllUnder font os s = .next t ∧ t.Inv) ∧
  (∀ (font : Font) (os : List (Op × Byte × Nat)) (b : Block), b.Inv → ∃ c, b.performAll font os = .next c ∧ c.Inv)

/-! ### Whole-machine rules -/

/-- R26: how each instruction fetched from `a` leaves `pc`; an instruction that faults leaves it at `a`. -/
def Obligations.PcAfterEachInstruction : Prop :=
  ∀ (i : Instr) (s t : State), s.fault = none → s.pc.toNat ≤ 0xFFE → exec i s = .next t →
    (t.fault ≠ none → t.pc = s.pc) ∧ (t.fault = none → t.pc.toNat = pcAfter i s)

/-- The frame of all 35 instructions: what each may change is what `touchesOf` names, and nothing else (10_state.md
R23, R24, R28 to R35, R37; 20_memory.md R63). -/
def Obligations.FrameOfEveryInstruction : Prop :=
  ∀ (i : Instr) (s t : State), exec i s = .next t → (touchesOf i s).only s t

/-- A register that an instruction does not read influences nothing but itself: giving it another value first changes
no other part of the outcome (10_state.md section 2, R23, "reads"). -/
def Obligations.UnreadRegistersInfluenceNothing : Prop :=
  ∀ (i : Instr) (r : Reg) (b : Byte) (s : State), r ∉ regsRead i →
    mapNext (fun t => t.writeV r 0#8) (exec i (s.writeV r b)) = mapNext (fun t => t.writeV r 0#8) (exec i s)

/-- VF after each of the six flag-setting instructions, from operand values before the step; no other instruction
writes VF except by naming it as x, or by LD Vx,[I] with x = 0xF; its reset value is 0 (10_state.md section 5, R37; that
OR, AND, XOR and ADD I,Vx leave VF alone is the spec's D18 and D9, log 12). -/
def Obligations.VFAfterEachInstruction : Prop :=
  State.reset.readV VF = 0#8 ∧
  ∀ (i : Instr) (s t : State), s.fault = none → exec i s = .next t → t.fault = none →
    match i with
    | .addReg x y => (t.readV VF).toNat = if (s.readV x).toNat + (s.readV y).toNat ≥ 256 then 1 else 0
    | .subReg x y => (t.readV VF).toNat = if (s.readV x).toNat ≥ (s.readV y).toNat then 1 else 0
    | .subnReg x y => (t.readV VF).toNat = if (s.readV y).toNat ≥ (s.readV x).toNat then 1 else 0
    | .shr x _ => (t.readV VF).toNat = (s.readV x).toNat % 2
    | .shl x _ => (t.readV VF).toNat = (s.readV x).toNat / 128
    | .drw _ _ _ =>
      ((∃ r c, Framebuffer.pixel s.fb r c = true ∧ Framebuffer.pixel t.fb r c = false) → t.readV VF = 1#8) ∧
      ((¬ ∃ r c, Framebuffer.pixel s.fb r c = true ∧ Framebuffer.pixel t.fb r c = false) → t.readV VF = 0#8)
    | .ldImm x _ | .addImm x _ | .ldReg x _ | .orReg x _ | .andReg x _ | .xorReg x _ | .rnd x _ | .ldVxDt x | .ldVxK x
    | .loadRegs x => x ≠ VF → t.readV VF = s.readV VF
    | .cls | .ret | .sys _ | .jp _ | .call _ | .seImm _ _ | .sneImm _ _ | .seReg _ _ | .sneReg _ _ | .ldI _ | .jpV0 _
    | .skp _ | .sknp _ | .ldDtVx _ | .ldStVx _ | .addI _ | .ldF _ | .ldB _ | .storeRegs _ => t.readV VF = s.readV VF

/-- R28: `sp` is 0 after reset; no operation takes it outside 0..16; no instruction but CALL and RET reads or writes it;
CALL increments it after storing and RET decrements it before reading, but for CALL with `sp = 16` and RET with
`sp = 0`, which fault. -/
def Obligations.StackPointerDiscipline : Prop :=
  State.reset.sp = 0#8 ∧
  (∀ (font : Font) (o : Op) (s t : State), s.sp.toNat ≤ 16 → performUnder font o s = .next t → t.sp.toNat ≤ 16) ∧
  (∀ (i : Instr) (s : State) (v : Byte), (∀ nnn, i ≠ .call nnn) → i ≠ .ret →
    exec i (s.setSp v) = mapNext (fun t => t.setSp v) (exec i s)) ∧
  (∀ (nnn : Addr12) (s t : State), s.fault = none → exec (.call nnn) s = .next t →
    if s.sp = 16#8 then t.fault ≠ none
    else t.fault = none ∧ t.stack.toList.getD s.sp.toNat 0#16 = s.pc + 2 ∧ t.sp.toNat = s.sp.toNat + 1) ∧
  (∀ s t : State, s.fault = none → exec .ret s = .next t →
    if s.sp = 0#8 then t.fault ≠ none
    else t.fault = none ∧ s.sp.toNat = t.sp.toNat + 1 ∧ t.pc = s.stack.toList.getD t.sp.toNat 0#16)

/-- Stack entries that `sp` does not count, such as one a RET has left behind, are seen by no instruction: two states
that differ only in them step to states that differ only in such entries (10_state.md section 3, R29; that RET leaves
the entry is the spec's decision D19, log 21). -/
def Obligations.StaleStackEntriesAreUnobservable : Prop :=
  ∀ s t : State, s.sp.toNat ≤ 16 → SameButStale s t →
    ∃ s' t', step s = .next s' ∧ step t = .next t' ∧ SameButStale s' t'

/-- Only RND and LD Vx,K use a draw: to every other instruction the count of draws makes no difference (00_scope.md
section 5, R9; the count is the model's own field, log 1, log 2). -/
def Obligations.OtherInstructionsIgnoreTheDraws : Prop :=
  ∀ (i : Instr) (s : State) (d : Nat), (∀ x kk, i ≠ .rnd x kk) → (∀ x, i ≠ .ldVxK x) →
    exec i (s.setDraws d) = mapNext (fun t => t.setDraws d) (exec i s)

/-! ### Control flow -/

/-- SYS raises InvalidOpcode under the policy `fault`, which the block follows, and only advances `pc` under `nop`
(40_flow.md section 2, SYS; the spec's decision D4, log 6). -/
def Obligations.SysFollowsItsPolicy : Prop :=
  ∀ (nnn : Addr12) (s : State),
    exec (.sys nnn) s = .next (s.setFault (some ⟨.invalidOpcode, some (encode (.sys nnn)), some s.pc, none⟩)) ∧
    sysUnder .nop nnn s = .next (s.setPc (s.pc + 2))

/-- JP addr sets `pc` to the zero-extended field, JP V0,addr to its unreduced sum with V0, and neither changes anything
else (40_flow.md section 2; effects and patterns are the spec's D3 and D17, log 8, log 14). -/
def Obligations.JumpsSetPc : Prop :=
  DecodesAs 0xF000#16 0x1000#16 (fun w => .jp (w.extractLsb' 0 12)) ∧
  DecodesAs 0xF000#16 0xB000#16 (fun w => .jpV0 (w.extractLsb' 0 12)) ∧
  ∀ (nnn : Addr12) (s : State),
    (∃ t, exec (.jp nnn) s = .next t ∧ t.pc.toNat = nnn.toNat ∧ ({} : Touches).only s t) ∧
    (∃ t, exec (.jpV0 nnn) s = .next t ∧ t.pc.toNat = nnn.toNat + (s.readV 0).toNat ∧ ({} : Touches).only s t)

/-- CALL with room on the stack stores the address after it at `stack[sp]`, increments `sp` and jumps; no other stack
entry changes (40_flow.md section 2, CALL; the pattern is the spec's D3, log 8). -/
def Obligations.CallPushesTheReturnAddress : Prop :=
  DecodesAs 0xF000#16 0x2000#16 (fun w => .call (w.extractLsb' 0 12)) ∧
  ∀ (nnn : Addr12) (s : State) (h : s.sp.toNat < 16),
    ∃ t, exec (.call nnn) s = .next t ∧ t.pc.toNat = nnn.toNat ∧ t.sp.toNat = s.sp.toNat + 1 ∧
      t.stack[s.sp.toNat] = s.pc + 2 ∧ (∀ k : Fin 16, k.val ≠ s.sp.toNat → t.stack[k.val] = s.stack[k.val]) ∧
      ({ sp := true, stack := true } : Touches).only s t

/-- RET with an entry on the stack decrements `sp` and restores `pc` from the entry it then points at; the stack itself
is unchanged (40_flow.md section 2, RET; the pattern is the spec's D3, log 8, and the entry left in place D19, log 21). -/
def Obligations.ReturnPopsTheStack : Prop :=
  decodeWord 0x00EE#16 = .ok .ret ∧
  ∀ (s : State) (_ : 0 < s.sp.toNat) (h : s.sp.toNat ≤ 16),
    ∃ t, exec .ret s = .next t ∧ s.sp.toNat = t.sp.toNat + 1 ∧ t.pc = s.stack[s.sp.toNat - 1] ∧
      ({ sp := true } : Touches).only s t

/-- CALL with `sp = 16` records StackOverflow and pushes nothing; RET with `sp = 0` records StackUnderflow
(60_exceptions.md section 1, R253, R254; the record's fields are the spec's D14, log 19, and that all else is unchanged
D13, log 21). -/
def Obligations.StackFaultsOfCallAndReturn : Prop :=
  (∀ (nnn : Addr12) (s : State), s.sp.toNat = 16 →
    exec (.call nnn) s = .next (s.setFault (some ⟨.stackOverflow, some (encode (.call nnn)), some s.pc, none⟩))) ∧
  (∀ s : State, s.sp.toNat = 0 →
    exec .ret s = .next (s.setFault (some ⟨.stackUnderflow, some 0x00EE#16, some s.pc, none⟩)))

/-- A RET executed when the stack is again as a CALL left it returns to the instruction after that CALL and takes `sp`
back (40_flow.md section 2, CALL and RET together). -/
def Obligations.ReturnUndoesCall : Prop :=
  ∀ (nnn : Addr12) (s t u : State), s.sp.toNat < 16 → exec (.call nnn) s = .next t → u.sp = t.sp → u.stack = t.stack →
    ∃ v, exec .ret u = .next v ∧ v.pc = s.pc + 2 ∧ v.sp = s.sp

/-- The four register and immediate skips: `pc` moves on by 4 when the bytes compare as the mnemonic says and by 2
otherwise; nothing else changes (40_flow.md section 2; the patterns and the sense of each are the spec's D3, log 8). -/
def Obligations.SkipsCompareWholeBytes : Prop :=
  DecodesAs 0xF000#16 0x3000#16 (fun w => .seImm (w.extractLsb' 8 4).toFin (w.extractLsb' 0 8)) ∧
  DecodesAs 0xF000#16 0x4000#16 (fun w => .sneImm (w.extractLsb' 8 4).toFin (w.extractLsb' 0 8)) ∧
  DecodesAs 0xF00F#16 0x5000#16 (fun w => .seReg (w.extractLsb' 8 4).toFin (w.extractLsb' 4 4).toFin) ∧
  DecodesAs 0xF00F#16 0x9000#16 (fun w => .sneReg (w.extractLsb' 8 4).toFin (w.extractLsb' 4 4).toFin) ∧
  ∀ (x y : Reg) (kk : Byte) (s : State),
    (∃ t, exec (.seImm x kk) s = .next t ∧ (t.pc = if (s.readV x).toNat = kk.toNat then s.pc + 4 else s.pc + 2) ∧
      ({} : Touches).only s t) ∧
    (∃ t, exec (.sneImm x kk) s = .next t ∧ (t.pc = if (s.readV x).toNat = kk.toNat then s.pc + 2 else s.pc + 4) ∧
      ({} : Touches).only s t) ∧
    (∃ t, exec (.seReg x y) s = .next t ∧
      (t.pc = if (s.readV x).toNat = (s.readV y).toNat then s.pc + 4 else s.pc + 2) ∧ ({} : Touches).only s t) ∧
    (∃ t, exec (.sneReg x y) s = .next t ∧
      (t.pc = if (s.readV x).toNat = (s.readV y).toNat then s.pc + 2 else s.pc + 4) ∧ ({} : Touches).only s t)

/-! ### Register instructions -/

/-- R150: LD Vx,kk, opcode 6xkk, loads kk into Vx. -/
def Obligations.LoadImmediate : Prop :=
  DecodesAs 0xF000#16 0x6000#16 (fun w => .ldImm (w.extractLsb' 8 4).toFin (w.extractLsb' 0 8)) ∧
  ∀ (x : Reg) (kk : Byte) (s : State),
    ∃ t, exec (.ldImm x kk) s = .next t ∧ t.readV x = kk ∧ t.pc = s.pc + 2 ∧ ({ regs := [x] } : Touches).only s t

/-- ADD Vx,kk wraps and sets no flag; LD Vx,Vy copies; OR, AND and XOR combine bit by bit and leave VF alone
(41_alu.md section 2; patterns and the last four effects are the spec's D3 and D18, log 8, log 12). -/
def Obligations.FlaglessRegisterResults : Prop :=
  DecodesAs 0xF000#16 0x7000#16 (fun w => .addImm (w.extractLsb' 8 4).toFin (w.extractLsb' 0 8)) ∧
  DecodesAs 0xF00F#16 0x8000#16 (fun w => .ldReg (w.extractLsb' 8 4).toFin (w.extractLsb' 4 4).toFin) ∧
  DecodesAs 0xF00F#16 0x8001#16 (fun w => .orReg (w.extractLsb' 8 4).toFin (w.extractLsb' 4 4).toFin) ∧
  DecodesAs 0xF00F#16 0x8002#16 (fun w => .andReg (w.extractLsb' 8 4).toFin (w.extractLsb' 4 4).toFin) ∧
  DecodesAs 0xF00F#16 0x8003#16 (fun w => .xorReg (w.extractLsb' 8 4).toFin (w.extractLsb' 4 4).toFin) ∧
  ∀ (x y : Reg) (kk : Byte) (s : State),
    (∃ t, exec (.addImm x kk) s = .next t ∧ (t.readV x).toNat = ((s.readV x).toNat + kk.toNat) % 256 ∧
      t.pc = s.pc + 2 ∧ ({ regs := [x] } : Touches).only s t) ∧
    (∃ t, exec (.ldReg x y) s = .next t ∧ t.readV x = s.readV y ∧
      t.pc = s.pc + 2 ∧ ({ regs := [x] } : Touches).only s t) ∧
    (∃ t, exec (.orReg x y) s = .next t ∧
      (∀ k, (t.readV x).getLsbD k = ((s.readV x).getLsbD k || (s.readV y).getLsbD k)) ∧
      t.pc = s.pc + 2 ∧ ({ regs := [x] } : Touches).only s t) ∧
    (∃ t, exec (.andReg x y) s = .next t ∧
      (∀ k, (t.readV x).getLsbD k = ((s.readV x).getLsbD k && (s.readV y).getLsbD k)) ∧
      t.pc = s.pc + 2 ∧ ({ regs := [x] } : Touches).only s t) ∧
    (∃ t, exec (.xorReg x y) s = .next t ∧
      (∀ k, (t.readV x).getLsbD k = ((s.readV x).getLsbD k != (s.readV y).getLsbD k)) ∧
      t.pc = s.pc + 2 ∧ ({ regs := [x] } : Touches).only s t)

/-- R156: ADD Vx,Vy, opcode 8xy4. With x = 0xF the flag is what remains. -/
def Obligations.AddSetsCarry : Prop :=
  DecodesAs 0xF00F#16 0x8004#16 (fun w => .addReg (w.extractLsb' 8 4).toFin (w.extractLsb' 4 4).toFin) ∧
  ∀ (x y : Reg) (s : State),
    ∃ t, exec (.addReg x y) s = .next t ∧
      (x ≠ VF → (t.readV x).toNat = ((s.readV x).toNat + (s.readV y).toNat) % 256) ∧
      (t.readV VF).toNat = (if (s.readV x).toNat + (s.readV y).toNat ≥ 256 then 1 else 0) ∧
      t.pc = s.pc + 2 ∧ ({ regs := [x, VF] } : Touches).only s t

/-- R157: SUB Vx,Vy, opcode 8xy5, Vx minus Vy. With x = 0xF the flag is what remains. -/
def Obligations.SubSetsNoBorrow : Prop :=
  DecodesAs 0xF00F#16 0x8005#16 (fun w => .subReg (w.extractLsb' 8 4).toFin (w.extractLsb' 4 4).toFin) ∧
  ∀ (x y : Reg) (s : State),
    ∃ t, exec (.subReg x y) s = .next t ∧
      (x ≠ VF → (t.readV x).toNat =
        if (s.readV x).toNat ≥ (s.readV y).toNat then (s.readV x).toNat - (s.readV y).toNat
        else (s.readV x).toNat + 256 - (s.readV y).toNat) ∧
      (t.readV VF).toNat = (if (s.readV x).toNat ≥ (s.readV y).toNat then 1 else 0) ∧
      t.pc = s.pc + 2 ∧ ({ regs := [x, VF] } : Touches).only s t

/-- R158: SHR Vx, opcode 8xy6. Vy takes no part, whatever y is; with x = 0xF the flag is what remains. -/
def Obligations.ShiftRightIntoVF : Prop :=
  DecodesAs 0xF00F#16 0x8006#16 (fun w => .shr (w.extractLsb' 8 4).toFin (w.extractLsb' 4 4).toFin) ∧
  ∀ (x y : Reg) (s : State),
    ∃ t, exec (.shr x y) s = .next t ∧
      (x ≠ VF → (t.readV x).toNat = (s.readV x).toNat / 2) ∧
      (t.readV VF).toNat = (s.readV x).toNat % 2 ∧
      t.pc = s.pc + 2 ∧ ({ regs := [x, VF] } : Touches).only s t

/-- R159: SUBN Vx,Vy, opcode 8xy7, Vy minus Vx. With x = 0xF the flag is what remains. -/
def Obligations.SubnSetsNoBorrow : Prop :=
  DecodesAs 0xF00F#16 0x8007#16 (fun w => .subnReg (w.extractLsb' 8 4).toFin (w.extractLsb' 4 4).toFin) ∧
  ∀ (x y : Reg) (s : State),
    ∃ t, exec (.subnReg x y) s = .next t ∧
      (x ≠ VF → (t.readV x).toNat =
        if (s.readV y).toNat ≥ (s.readV x).toNat then (s.readV y).toNat - (s.readV x).toNat
        else (s.readV y).toNat + 256 - (s.readV x).toNat) ∧
      (t.readV VF).toNat = (if (s.readV y).toNat ≥ (s.readV x).toNat then 1 else 0) ∧
      t.pc = s.pc + 2 ∧ ({ regs := [x, VF] } : Touches).only s t

/-- R160: SHL Vx, opcode 8xyE. Vy takes no part, whatever y is; with x = 0xF the flag is what remains. -/
def Obligations.ShiftLeftIntoVF : Prop :=
  DecodesAs 0xF00F#16 0x800E#16 (fun w => .shl (w.extractLsb' 8 4).toFin (w.extractLsb' 4 4).toFin) ∧
  ∀ (x y : Reg) (s : State),
    ∃ t, exec (.shl x y) s = .next t ∧
      (x ≠ VF → (t.readV x).toNat = (2 * (s.readV x).toNat) % 256) ∧
      (t.readV VF).toNat = (s.readV x).toNat / 128 ∧
      t.pc = s.pc + 2 ∧ ({ regs := [x, VF] } : Touches).only s t

/-- RND Vx,kk loads the draw, masked; every byte as the draw gives its own masked value (41_alu.md section 2, RND; the
draw is a free value, D12, log 1, and the pattern the spec's D3, log 8). -/
def Obligations.RandomByteIsMasked : Prop :=
  DecodesAs 0xF000#16 0xC000#16 (fun w => .rnd (w.extractLsb' 8 4).toFin (w.extractLsb' 0 8)) ∧
  ∀ (x : Reg) (kk : Byte) (s : State),
    (∃ t, exec (.rnd x kk) s = .next t ∧
      (∀ k, (t.readV x).getLsbD k = ((Config.rnd s.draws).getLsbD k && kk.getLsbD k)) ∧
      t.pc = s.pc + 2 ∧ ({ regs := [x], draws := true } : Touches).only s t) ∧
    (∀ r : Byte, ∃ t, rndInto r x kk s = .next t ∧ (∀ k, (t.readV x).getLsbD k = (r.getLsbD k && kk.getLsbD k)))

/-! ### Display -/

/-- R181: CLS, opcode 00E0, turns every pixel off and sets the redraw flag; VF is not written. -/
def Obligations.ClsClearsTheDisplay : Prop :=
  decodeWord 0x00E0#16 = .ok .cls ∧
  ∀ s : State,
    ∃ t, exec .cls s = .next t ∧ (∀ r c, Framebuffer.pixel t.fb r c = false) ∧ t.redraw = true ∧
      t.pc = s.pc + 2 ∧ ({ fb := true, redraw := true } : Touches).only s t

/-- The blit toggles exactly the pixels under a sprite bit that is 1, reports a collision exactly when one of them was
on, and sets the redraw flag, also for no rows; nothing else changes (42_display.md section 1, R184; which bit of a byte
is which pixel is the spec's D7, log 15). -/
def Obligations.BlitExclusiveOrsTheSprite : Prop :=
  ∀ (s : State) (x0 y0 : Nat) (rows : List Byte), x0 ≤ 255 → y0 ≤ 255 → rows.length ≤ 15 →
    Composed s.fb (s.drawSprite x0 y0 rows).1.fb rows x0 y0 ∧
    ((s.drawSprite x0 y0 rows).2 = true ↔ Collides s.fb rows x0 y0) ∧
    (s.drawSprite x0 y0 rows).1.redraw = true ∧ (s.drawSprite x0 y0 rows).1.pc = s.pc ∧
    ({ fb := true, redraw := true } : Touches).only s (s.drawSprite x0 y0 rows).1

/-- Drawing the same sprite at the same place twice restores the framebuffer, and the second collision reports the
pixels the first draw turned on; a full row at x = 60 toggles columns 60 to 63 and 0 to 3; a sprite of zeros changes no
pixel and reports no collision (42_display.md section 1, R185, which the spec derives from R184; which bit of a byte is
which pixel is the spec's D7, log 15). -/
def Obligations.DoubleDrawRestoresAndSpritesWrap : Prop :=
  (∀ (s : State) (x0 y0 : Nat) (rows : List Byte), x0 ≤ 255 → y0 ≤ 255 → rows.length ≤ 15 →
    ((s.drawSprite x0 y0 rows).1.drawSprite x0 y0 rows).1.fb = s.fb ∧
    (((s.drawSprite x0 y0 rows).1.drawSprite x0 y0 rows).2 = true ↔
      ∃ r c, SpriteLit rows x0 y0 r c ∧ Framebuffer.pixel s.fb r c = false)) ∧
  (∀ (s : State) (y0 : Nat) (r : Fin 32) (c : Fin 64), y0 ≤ 255 →
    (Framebuffer.pixel (s.drawSprite 60 y0 [0xFF#8]).1.fb r c ≠ Framebuffer.pixel s.fb r c ↔
      r.val = y0 % 32 ∧ c.val ∈ [60, 61, 62, 63, 0, 1, 2, 3])) ∧
  (∀ (s : State) (x0 y0 m : Nat), m ≤ 15 →
    (s.drawSprite x0 y0 (List.replicate m 0#8)).1.fb = s.fb ∧ (s.drawSprite x0 y0 (List.replicate m 0#8)).2 = false)

/-- DRW whose n bytes lie in memory, or with n = 0: the n bytes from `I` are blitted at (Vx, Vy), VF is the collision,
redraw is set, memory and `I` are unchanged (42_display.md section 2, DRW; the bound is the spec's D8, log 11). -/
def Obligations.DrwBlitsTheBytesAtI : Prop :=
  DecodesAs 0xF000#16 0xD000#16
    (fun w => .drw (w.extractLsb' 8 4).toFin (w.extractLsb' 4 4).toFin (w.extractLsb' 0 4)) ∧
  ∀ (x y : Reg) (n : Nibble) (s : State), n.toNat = 0 ∨ s.I.toNat + n.toNat - 1 ≤ 0xFFF →
    ∃ (t : State) (rows : List Byte), rows = (List.range n.toNat).map (fun j => s.mem.read (s.I.toNat + j)) ∧
      exec (.drw x y n) s = .next t ∧
      Composed s.fb t.fb rows (s.readV x).toNat (s.readV y).toNat ∧
      (Collides s.fb rows (s.readV x).toNat (s.readV y).toNat → t.readV VF = 1#8) ∧
      (¬ Collides s.fb rows (s.readV x).toNat (s.readV y).toNat → t.readV VF = 0#8) ∧
      t.redraw = true ∧ t.pc = s.pc + 2 ∧ ({ regs := [VF], fb := true, redraw := true } : Touches).only s t

/-! ### Keyboard -/

/-- SKP skips when the key named by the whole byte Vx is held, SKNP when it is not; a byte above 15 names no held key
(43_keyboard.md sections 1 and 2; the patterns are the spec's D3, log 8). -/
def Obligations.KeySkipsTestTheHeldSet : Prop :=
  DecodesAs 0xF0FF#16 0xE09E#16 (fun w => .skp (w.extractLsb' 8 4).toFin) ∧
  DecodesAs 0xF0FF#16 0xE0A1#16 (fun w => .sknp (w.extractLsb' 8 4).toFin) ∧
  ∀ (x : Reg) (s : State),
    ∃ t u, exec (.skp x) s = .next t ∧ exec (.sknp x) s = .next u ∧
      ((∃ k : Key, KeySet.holds s.keys k = true ∧ (s.readV x).toNat = k.val) → t.pc = s.pc + 4 ∧ u.pc = s.pc + 2) ∧
      ((¬ ∃ k : Key, KeySet.holds s.keys k = true ∧ (s.readV x).toNat = k.val) → t.pc = s.pc + 2 ∧ u.pc = s.pc + 4) ∧
      ({} : Touches).only s t ∧ ({} : Touches).only s u

/-- LD Vx,K with no key held changes nothing, `pc` included; with a key held it loads a held key and advances; every
held key is loaded under some draw (43_keyboard.md section 2, LD Vx,K; the choice is a free value, D11, log 1, log 2). -/
def Obligations.KeyWaitLoadsSomeHeldKey : Prop :=
  DecodesAs 0xF0FF#16 0xF00A#16 (fun w => .ldVxK (w.extractLsb' 8 4).toFin) ∧
  ∀ (x : Reg) (s : State),
    ((∀ k, KeySet.holds s.keys k = false) → exec (.ldVxK x) s = .next s) ∧
    ((∃ k, KeySet.holds s.keys k = true) →
      ∃ t k, exec (.ldVxK x) s = .next t ∧ KeySet.holds s.keys k = true ∧ (t.readV x).toNat = k.val ∧
        t.pc = s.pc + 2 ∧ ({ regs := [x], draws := true } : Touches).only s t) ∧
    (∀ k, KeySet.holds s.keys k = true → ∃ d t, waitKey d x s = .next t ∧ (t.readV x).toNat = k.val)

/-- A step in the waiting condition, `pc` at an Fx0A opcode and no key held, leaves every state element as it was
(43_keyboard.md section 3, R206; no "awaiting key" flag is the spec's D22, log 21). -/
def Obligations.WaitingStepIsTheIdentity : Prop :=
  ∀ (s : State) (w : Word), s.fetchOpcode = some w → w &&& 0xF0FF#16 = 0xF00A#16 →
    (∀ k, KeySet.holds s.keys k = false) → step s = .next s

/-! ### Timers, index register, memory at I -/

/-- The three timer moves (44_timer_index_memory.md section 2; effects and patterns are the spec's D3, log 8). -/
def Obligations.TimerMoves : Prop :=
  DecodesAs 0xF0FF#16 0xF007#16 (fun w => .ldVxDt (w.extractLsb' 8 4).toFin) ∧
  DecodesAs 0xF0FF#16 0xF015#16 (fun w => .ldDtVx (w.extractLsb' 8 4).toFin) ∧
  DecodesAs 0xF0FF#16 0xF018#16 (fun w => .ldStVx (w.extractLsb' 8 4).toFin) ∧
  ∀ (x : Reg) (s : State),
    (∃ t, exec (.ldVxDt x) s = .next t ∧ t.readV x = s.DT ∧ t.pc = s.pc + 2 ∧ ({ regs := [x] } : Touches).only s t) ∧
    (∃ t, exec (.ldDtVx x) s = .next t ∧ t.DT = s.readV x ∧ t.pc = s.pc + 2 ∧ ({ DT := true } : Touches).only s t) ∧
    (∃ t, exec (.ldStVx x) s = .next t ∧ t.ST = s.readV x ∧ t.pc = s.pc + 2 ∧ ({ ST := true } : Touches).only s t)

/-- LD I,addr loads the field; ADD I,Vx wraps at 16 bits and sets no flag; LD F,Vx loads five times the whole register
(44_timer_index_memory.md section 3; the spec's decisions D3, D9 and D10, log 8, log 12, log 13). -/
def Obligations.IndexRegisterLoads : Prop :=
  DecodesAs 0xF000#16 0xA000#16 (fun w => .ldI (w.extractLsb' 0 12)) ∧
  DecodesAs 0xF0FF#16 0xF01E#16 (fun w => .addI (w.extractLsb' 8 4).toFin) ∧
  DecodesAs 0xF0FF#16 0xF029#16 (fun w => .ldF (w.extractLsb' 8 4).toFin) ∧
  ∀ (nnn : Addr12) (x : Reg) (s : State),
    (∃ t, exec (.ldI nnn) s = .next t ∧ t.I.toNat = nnn.toNat ∧ t.pc = s.pc + 2 ∧
      ({ I := true } : Touches).only s t) ∧
    (∃ t, exec (.addI x) s = .next t ∧ t.I.toNat = (s.I.toNat + (s.readV x).toNat) % 65536 ∧ t.pc = s.pc + 2 ∧
      ({ I := true } : Touches).only s t) ∧
    (∃ t, exec (.ldF x) s = .next t ∧ t.I.toNat = 5 * (s.readV x).toNat ∧ t.pc = s.pc + 2 ∧
      ({ I := true } : Touches).only s t)

/-- LD B,Vx stores the three decimal digits at I, I+1, I+2 and changes no other byte (44_timer_index_memory.md section 4,
LD B; the bound is the spec's D8, log 11). -/
def Obligations.BcdDigitsAreStored : Prop :=
  DecodesAs 0xF0FF#16 0xF033#16 (fun w => .ldB (w.extractLsb' 8 4).toFin) ∧
  ∀ (x : Reg) (s : State), s.mem.wf = true → s.I.toNat + 2 ≤ 0xFFF →
    ∃ t, exec (.ldB x) s = .next t ∧
      (t.mem.read s.dataBase).toNat = (s.readV x).toNat / 100 ∧
      (t.mem.read (s.dataBase + 1)).toNat = (s.readV x).toNat / 10 % 10 ∧
      (t.mem.read (s.dataBase + 2)).toNat = (s.readV x).toNat % 10 ∧
      t.pc = s.pc + 2 ∧ ({ mem := [s.dataBase, s.dataBase + 1, s.dataBase + 2] } : Touches).only s t

/-- LD [I],Vx stores V0 to Vx inclusive at I to I+x, changes no other byte, and leaves I (44_timer_index_memory.md
section 4, LD [I],Vx; the pattern and the bound are the spec's D3 and D8, log 8, log 11). -/
def Obligations.RegistersAreStoredAtI : Prop :=
  DecodesAs 0xF0FF#16 0xF055#16 (fun w => .storeRegs (w.extractLsb' 8 4).toFin) ∧
  ∀ (x : Reg) (s : State), s.mem.wf = true → s.I.toNat + x.val ≤ 0xFFF →
    ∃ t, exec (.storeRegs x) s = .next t ∧
      (∀ k : Reg, k ≤ x → t.mem.read (s.dataBase + k.val) = s.readV k) ∧
      t.pc = s.pc + 2 ∧ ({ mem := (List.range (x.val + 1)).map (s.dataBase + ·) } : Touches).only s t

/-- LD Vx,[I] loads V0 to Vx inclusive from I to I+x; registers above x, memory and I are unchanged
(44_timer_index_memory.md section 4, LD Vx,[I]; the pattern and the bound are the spec's D3 and D8, log 8, log 11). -/
def Obligations.RegistersAreLoadedFromI : Prop :=
  DecodesAs 0xF0FF#16 0xF065#16 (fun w => .loadRegs (w.extractLsb' 8 4).toFin) ∧
  ∀ (x : Reg) (s : State), s.I.toNat + x.val ≤ 0xFFF →
    ∃ t, exec (.loadRegs x) s = .next t ∧
      (∀ k : Reg, k ≤ x → t.readV k = s.mem.read (s.I.toNat + k.val)) ∧
      (∀ k : Reg, x < k → t.readV k = s.readV k) ∧
      t.pc = s.pc + 2 ∧ ({ regs := (List.finRange 16).filter (· ≤ x) } : Touches).only s t

/-- LD Vx,[I] after LD [I],Vx, at any later state with the same memory and I, brings V0 to Vx back
(44_timer_index_memory.md section 4, the two block copies together). -/
def Obligations.LoadAfterStoreRestoresRegisters : Prop :=
  ∀ (x : Reg) (s t u v : State), s.mem.wf = true → s.I.toNat + x.val ≤ 0xFFF → exec (.storeRegs x) s = .next t →
    u.mem = t.mem → u.I = t.I → exec (.loadRegs x) u = .next v → ∀ k : Reg, k ≤ x → v.readV k = s.readV k

/-- A store is seen by the very next fetch: after LD [I],Vx with x at least 1 and I at the following instruction, the
next step runs the word made of V0 and V1 (20_memory.md section 7, R79, which the spec derives). -/
def Obligations.StoredCodeIsFetchedNext : Prop :=
  ∀ (x : Reg) (s t : State) (i : Instr), s.mem.wf = true → s.fault = none → s.pc.toNat ≤ 0xFFC → 1 ≤ x.val →
    s.I.toNat = s.pc.toNat + 2 → s.I.toNat + x.val ≤ 0xFFF → exec (.storeRegs x) s = .next t →
    decodeWord (joinBytes (s.readV 0) (s.readV 1)) = .ok i → step t = exec i t

/-! ### The operations of the environment -/

/-- R261: a tick takes 1 from each timer that is not 0, leaves a timer at 0, returns 1 exactly when the sound timer was
not 0, and touches nothing else; with a fault recorded it does nothing and returns 0. -/
def Obligations.TickCountsTheTimersDown : Prop :=
  ∀ s : State,
    (s.fault ≠ none → tick s = (s, false)) ∧
    (s.fault = none →
      (tick s).1.DT.toNat = s.DT.toNat - 1 ∧ (tick s).1.ST.toNat = s.ST.toNat - 1 ∧
      ((tick s).2 = true ↔ s.ST.toNat ≠ 0) ∧ (tick s).1.pc = s.pc ∧
      ({ DT := true, ST := true } : Touches).only s (tick s).1)

/-- R262: a tick returns 1 exactly when ST was not 0 before it; so, from ST = v, and whatever happens between the ticks so
long as nothing writes ST and nothing faults, the next v ticks return 1, including the one that takes ST from 1 to 0,
and every later tick returns 0. -/
def Obligations.BuzzLastsExactlySTTicks : Prop :=
  (∀ before : Nat → State, (∀ k, (before k).fault = none) →
    (∀ k, (before (k + 1)).ST = (tick (before k)).1.ST) →
    ∀ k, ((tick (before k)).2 = true ↔ (before k).ST.toNat ≠ 0) ∧
      ((tick (before k)).2 = true ↔ k < (before 0).ST.toNat)) ∧
  (∀ (s : State) (n : Nat), s.fault = none →
    (ticks n s).1 = List.replicate (min n s.ST.toNat) true ++ List.replicate (n - s.ST.toNat) false ∧
    (ticks n s).2.ST.toNat = s.ST.toNat - n)

/-- R201: KeyUpdate replaces the held set by the images of the pressed host keys that KEYMAP maps, whatever KEYMAP is;
nothing else changes; with a fault recorded it does nothing. -/
def Obligations.KeyUpdateReplacesTheHeldSet : Prop :=
  (∀ (keymap : HostKey → Option Key) (pressed : List HostKey) (s : State),
    (s.fault ≠ none → keyUpdateUnder keymap pressed s = s) ∧
    (s.fault = none →
      (∀ k, KeySet.holds (keyUpdateUnder keymap pressed s).keys k = true ↔ ∃ h ∈ pressed, keymap h = some k) ∧
      (keyUpdateUnder keymap pressed s).pc = s.pc ∧
      ({ keys := true } : Touches).only s (keyUpdateUnder keymap pressed s))) ∧
  (∀ (pressed : List HostKey) (s : State),
    perform (.keyUpdate pressed) s = .next (keyUpdateUnder Config.keymap pressed s))

/-- R186: RedrawAck clears the redraw flag and nothing else, and nothing at all while a fault is recorded; nothing else
clears the flag; CLS and DRW set it again; no instruction behaves differently for it. -/
def Obligations.OnlyRedrawAckClearsRedraw : Prop :=
  (∀ s : State, ∃ t, perform .redrawAck s = .next t ∧
    (s.fault ≠ none → t = s) ∧
    (s.fault = none → t.redraw = false ∧ t.pc = s.pc ∧ ({ redraw := true } : Touches).only s t)) ∧
  (∀ (i : Instr) (s t : State), exec i s = .next t → s.redraw = true → t.redraw = true) ∧
  (∀ (font : Font) (o : Op) (s t : State), o ≠ .redrawAck → performUnder font o s = .next t → s.redraw = true →
    t.redraw = true) ∧
  (∀ (i : Instr) (s t : State), (i = .cls ∨ ∃ x y n, i = .drw x y n) → exec i s = .next t → t.fault = none →
    t.redraw = true) ∧
  (∀ (i : Instr) (s : State) (b : Bool),
    mapNext (fun t => t.setRedraw true) (exec i (s.setRedraw b)) = mapNext (fun t => t.setRedraw true) (exec i s))

/-- A load of at most 3583 bytes puts byte k at 0x200 + k and changes no other byte and no other element
(70_reset_and_hazards.md section 2, LoadProgram; the bound is C3, log 20, loads outside the boot sequence D20, log 21). -/
def Obligations.LoadProgramCopiesTheImage : Prop :=
  ∀ (bytes : List Byte) (s : State), s.mem.wf = true → s.fault = none → bytes.length ≤ 3583 →
    ∃ t, perform (.loadProgram bytes) s = .next t ∧
      (∀ k, k < bytes.length → t.mem.read (0x200 + k) = bytes.getD k 0#8) ∧
      t.pc = s.pc ∧ ({ mem := (List.range bytes.length).map (0x200 + ·) } : Touches).only s t

/-- A load of more than 3583 bytes records LoadError with the length, and no byte of memory changes (60_exceptions.md
section 1, R258; the bound is C3, log 20, the record's fields D14, log 19, and that all else is unchanged D13,
log 21). -/
def Obligations.OversizedImageRaisesLoadError : Prop :=
  ∀ (bytes : List Byte) (s : State), s.fault = none → bytes.length > 3583 →
    perform (.loadProgram bytes) s = .next (s.setFault (some ⟨.loadError, none, none, some bytes.length⟩))

/-- After Reset, under any FONT and from any state, every element of the spec has its reset value, memory that FONT and
then zeros; under the default FONT, whose bytes are the table's (D6, log 7), it is the model's reset state (10_state.md
section 10; 70_reset_and_hazards.md section 1; 20_memory.md section 1). That redraw is 1 is the spec's decision D15,
log 10, and that there is a fault register, None, D13, log 21; the count of draws is the model's own and goes on,
log 3. -/
def Obligations.ResetGivesEveryElementItsValue : Prop :=
  (∀ s : State, perform .reset s = .next (State.reset.setDraws s.draws)) ∧
  (∀ k : Fin 80, defaultFont[k.val] = fontTable.getD k.val 0#8) ∧
  ∀ (font : Font) (s : State), ∃ t, performUnder font .reset s = .next t ∧
    t.pc = 0x200#16 ∧ t.sp = 0#8 ∧ (∀ r, t.readV r = 0#8) ∧ t.I = 0#16 ∧ t.DT = 0#8 ∧ t.ST = 0#8 ∧
    (∀ k : Fin 16, t.stack[k.val] = 0#16) ∧ (∀ k : Fin 80, t.mem.read k.val = font[k.val]) ∧
    (∀ a, 80 ≤ a → t.mem.read a = 0#8) ∧ (∀ r c, Framebuffer.pixel t.fb r c = false) ∧ t.redraw = true ∧
    (∀ k, KeySet.holds t.keys k = false) ∧ t.fault = none ∧ t.draws = s.draws

/-- A jump to its own address is a fixed point of Step (70_reset_and_hazards.md section 3, R301, which the spec
derives). -/
def Obligations.JumpToSelfIsAFixedPoint : Prop :=
  ∀ s : State, s.fetchOpcode = some (0x1000#16 ||| s.pc) → step s = .next s

/-- The host's machine is the block with the draws as inputs: every operation, and every schedule, of a state gives the
block that the same operations over `Block` give for the free draws at its record; and two states with the same block,
whatever their records, give the same block under RND and LD Vx,K with equal draws and under every other instruction
(10_state.md sections 1 and 9, R20, R38; 00_scope.md sections 4 and 5, R6, R9; the record is the model's own, log 1,
log 2). -/
def Obligations.DrawsAreInputsNotState : Prop :=
  (∀ (font : Font) (o : Op) (s : State),
    blockOf (performUnder font o s) = s.toBlock.perform font (Config.rnd s.draws) (Config.pick s.draws) o) ∧
  (∀ (font : Font) (os : List Op) (s : State), ∃ draws : List (Byte × Nat), draws.length = os.length ∧
    blockOf (performAllUnder font os s) = s.toBlock.performAll font (os.zip draws)) ∧
  (∀ s u : State, s.toBlock = u.toBlock →
    (∀ (x : Reg) (kk : Byte), exec (.rnd x kk) s = rndInto (Config.rnd s.draws) x kk s ∧
      ∀ r : Byte, ∃ t v, rndInto r x kk s = .next t ∧ rndInto r x kk u = .next v ∧ t.toBlock = v.toBlock) ∧
    (∀ x : Reg, exec (.ldVxK x) s = waitKey (Config.pick s.draws) x s ∧
      ∀ d : Nat, ∃ t v, waitKey d x s = .next t ∧ waitKey d x u = .next v ∧ t.toBlock = v.toBlock) ∧
    (∀ (i : Instr) (t : State), (∀ x kk, i ≠ .rnd x kk) → (∀ x, i ≠ .ldVxK x) → exec i s = .next t →
      ∃ v, exec i u = .next v ∧ t.toBlock = v.toBlock))
end

