-- ==== Sys2Proof/Laws/Decode.lean ====
section
/-! SUPPORT. The fields of the words the encoder builds. -/

namespace Sys2Proof

@[simp] theorem nibbleReg_regNibble (x : Reg) : nibbleReg (regNibble x) = x := by
  apply Fin.ext
  simp [nibbleReg, regNibble]

@[simp] theorem regNibble_nibbleReg (v : Nibble) : regNibble (nibbleReg v) = v := by
  apply BitVec.eq_of_toNat_eq
  simp [nibbleReg, regNibble]

@[simp] theorem opField_wordNNN (op : Nibble) (nnn : Addr12) : opField (wordNNN op nnn) = op := by
  ext i hi
  simp only [opField, wordNNN, BitVec.getElem_extractLsb', BitVec.getLsbD_append]
  simp [show ¬ (12 + i < 12) by omega, BitVec.getLsbD_eq_getElem, hi]

@[simp] theorem nnnField_wordNNN (op : Nibble) (nnn : Addr12) : nnnField (wordNNN op nnn) = nnn := by
  ext i hi
  simp only [nnnField, wordNNN, BitVec.getElem_extractLsb', BitVec.getLsbD_append]
  simp [hi, BitVec.getLsbD_eq_getElem]

theorem extract_high (a b : Byte) : (a ++ b : Word).extractLsb' 8 8 = a := by
  ext i hi
  simp only [BitVec.getElem_extractLsb', BitVec.getLsbD_append]
  simp [hi, BitVec.getLsbD_eq_getElem]

theorem extract_low (a b : Byte) : (a ++ b : Word).extractLsb' 0 8 = b := by
  ext i hi
  simp only [BitVec.getElem_extractLsb', BitVec.getLsbD_append]
  simp [hi, BitVec.getLsbD_eq_getElem]

theorem extract_nibble3 (a b : Nibble) (c : Byte) : ((a ++ b : Byte) ++ c : Word).extractLsb' 12 4 = a := by
  ext i hi
  simp only [BitVec.getElem_extractLsb', BitVec.getLsbD_append]
  simp [show ¬ (12 + i < 8) by omega, show ¬ (12 + i - 8 < 4) by omega, show 12 + i - 8 - 4 = i by omega, hi,
    BitVec.getLsbD_eq_getElem]

theorem extract_nibble2 (a b : Nibble) (c : Byte) : ((a ++ b : Byte) ++ c : Word).extractLsb' 8 4 = b := by
  ext i hi
  simp only [BitVec.getElem_extractLsb', BitVec.getLsbD_append]
  simp [hi, BitVec.getLsbD_eq_getElem]

theorem extract_nibble1 (a : Byte) (b c : Nibble) : (a ++ (b ++ c : Byte) : Word).extractLsb' 4 4 = b := by
  ext i hi
  simp only [BitVec.getElem_extractLsb', BitVec.getLsbD_append]
  simp [show 4 + i < 8 by omega, show ¬ (4 + i < 4) by omega, hi, BitVec.getLsbD_eq_getElem]

theorem extract_nibble0 (a : Byte) (b c : Nibble) : (a ++ (b ++ c : Byte) : Word).extractLsb' 0 4 = c := by
  ext i hi
  simp only [BitVec.getElem_extractLsb', BitVec.getLsbD_append]
  simp [show i < 8 by omega, hi, BitVec.getLsbD_eq_getElem]

@[simp] theorem opField_wordXKK (op : Nibble) (x : Reg) (kk : Byte) : opField (wordXKK op x kk) = op :=
  extract_nibble3 _ _ _

@[simp] theorem xField_wordXKK (op : Nibble) (x : Reg) (kk : Byte) : xField (wordXKK op x kk) = x := by
  simp [xField, wordXKK, extract_nibble2]

@[simp] theorem kkField_wordXKK (op : Nibble) (x : Reg) (kk : Byte) : kkField (wordXKK op x kk) = kk :=
  extract_low _ _

@[simp] theorem opField_wordXYN (op : Nibble) (x y : Reg) (n : Nibble) : opField (wordXYN op x y n) = op :=
  extract_nibble3 _ _ _

@[simp] theorem xField_wordXYN (op : Nibble) (x y : Reg) (n : Nibble) : xField (wordXYN op x y n) = x := by
  simp [xField, wordXYN, extract_nibble2]

@[simp] theorem yField_wordXYN (op : Nibble) (x y : Reg) (n : Nibble) : yField (wordXYN op x y n) = y :=
  (congrArg nibbleReg (extract_nibble1 _ _ _)).trans (nibbleReg_regNibble y)

@[simp] theorem nField_wordXYN (op : Nibble) (x y : Reg) (n : Nibble) : nField (wordXYN op x y n) = n :=
  extract_nibble0 _ _ _

/-- A word is its high byte and its low byte (20_memory.md R62). -/
@[simp] theorem joinBytes_bytes (w : Word) : joinBytes (highByte w) (lowByte w) = w := by
  apply BitVec.eq_of_getLsbD_eq
  intro i hi
  simp only [joinBytes, highByte, lowByte, BitVec.getLsbD_append, BitVec.getLsbD_extractLsb']
  split
  · simp [*]
  · simp [show 8 + (i - 8) = i by omega, show i - 8 < 8 by omega]

@[simp] theorem highByte_joinBytes (hi lo : Byte) : highByte (joinBytes hi lo) = hi := extract_high _ _

@[simp] theorem lowByte_joinBytes (hi lo : Byte) : lowByte (joinBytes hi lo) = lo := extract_low _ _

/-! The fields a mask fixes: the five fields of a word whose masked part is known. -/

theorem opField_and (w m : Word) (h : opField m = BitVec.allOnes 4) : opField (w &&& m) = opField w := by
  unfold opField at *
  rw [BitVec.extractLsb'_and, h, BitVec.and_allOnes]

theorem nField_and (w m : Word) (h : nField m = BitVec.allOnes 4) : nField (w &&& m) = nField w := by
  unfold nField at *
  rw [BitVec.extractLsb'_and, h, BitVec.and_allOnes]

theorem kkField_and (w m : Word) (h : kkField m = BitVec.allOnes 8) : kkField (w &&& m) = kkField w := by
  unfold kkField lowByte at *
  rw [BitVec.extractLsb'_and, h, BitVec.and_allOnes]

/-- A word is its four nibbles. -/
theorem word_eq_nibbles (w : Word) :
    w = ((opField w ++ w.extractLsb' 8 4 : Byte) ++ (w.extractLsb' 4 4 ++ nField w : Byte) : Word) := by
  apply BitVec.eq_of_getLsbD_eq
  intro i hi
  simp only [opField, nField, BitVec.getLsbD_append, BitVec.getLsbD_extractLsb']
  split <;> split
  · simp [*]
  · simp [show 4 + (i - 4) = i by omega, show i - 4 < 4 by omega]
  · simp [show 8 + (i - (4 + 4)) = i by omega, show i - (4 + 4) < 4 by omega]
  · simp [show 12 + (i - (4 + 4) - 4) = i by omega, show i - (4 + 4) - 4 < 4 by omega]

/-- A word is its major nibble, its x nibble and its low byte. -/
theorem word_eq_xkk (w : Word) : w = wordXKK (opField w) (xField w) (kkField w) := by
  simp only [wordXKK, xField, regNibble_nibbleReg]
  apply BitVec.eq_of_getLsbD_eq
  intro i hi
  simp only [opField, kkField, lowByte, BitVec.getLsbD_append, BitVec.getLsbD_extractLsb']
  split
  · simp [*]
  · split
    · simp [show 8 + (i - 8) = i by omega, *]
    · simp [show 12 + (i - 8 - 4) = i by omega, show i - 8 - 4 < 4 by omega]

/-- A word is its major nibble, its two register nibbles and its minor nibble. -/
theorem word_eq_xyn (w : Word) : w = wordXYN (opField w) (xField w) (yField w) (nField w) := by
  simpa only [wordXYN, xField, yField, regNibble_nibbleReg] using word_eq_nibbles w

/-- A word is its major nibble and its address field. -/
theorem word_eq_nnn (w : Word) : w = wordNNN (opField w) (nnnField w) := by
  apply BitVec.eq_of_getLsbD_eq
  intro i hi
  simp only [wordNNN, opField, nnnField, BitVec.getLsbD_append, BitVec.getLsbD_extractLsb']
  split
  · simp [*]
  · simp [show 12 + (i - 12) = i by omega, show i - 12 < 4 by omega]

/-- What `decodeBytes` reads is what `decodeWord` reads from the two bytes joined, and the rest. -/
theorem decodeBytes_two (hi lo : Byte) (rest : List Byte) (i : Instr) (h : decodeWord (joinBytes hi lo) = .ok i) :
    decodeBytes (hi :: lo :: rest) = .ok (i, rest) := by
  simp [decodeBytes, h]

end Sys2Proof
end

