-- ==== Sys2Proof/Laws/State.lean ====
section
/-! SUPPORT. One lemma per field per update, so that no proof unfolds a record update; the register file's read after
write; and the equations that bring the compound updates down to the single ones. -/

namespace Sys2Proof.Machine

/-! `setV` -/
@[simp] theorem State.setV_V (s : State) v : (s.setV v).V = v := rfl
@[simp] theorem State.setV_I (s : State) v : (s.setV v).I = s.I := rfl
@[simp] theorem State.setV_pc (s : State) v : (s.setV v).pc = s.pc := rfl
@[simp] theorem State.setV_sp (s : State) v : (s.setV v).sp = s.sp := rfl
@[simp] theorem State.setV_stack (s : State) v : (s.setV v).stack = s.stack := rfl
@[simp] theorem State.setV_DT (s : State) v : (s.setV v).DT = s.DT := rfl
@[simp] theorem State.setV_ST (s : State) v : (s.setV v).ST = s.ST := rfl
@[simp] theorem State.setV_mem (s : State) v : (s.setV v).mem = s.mem := rfl
@[simp] theorem State.setV_fb (s : State) v : (s.setV v).fb = s.fb := rfl
@[simp] theorem State.setV_redraw (s : State) v : (s.setV v).redraw = s.redraw := rfl
@[simp] theorem State.setV_keys (s : State) v : (s.setV v).keys = s.keys := rfl
@[simp] theorem State.setV_fault (s : State) v : (s.setV v).fault = s.fault := rfl
@[simp] theorem State.setV_draws (s : State) v : (s.setV v).draws = s.draws := rfl
@[simp] theorem State.setV_self (s : State) : s.setV s.V = s := rfl
@[simp] theorem State.setV_setV (s : State) v w : (s.setV v).setV w = s.setV w := rfl

/-! `setI` -/
@[simp] theorem State.setI_V (s : State) v : (s.setI v).V = s.V := rfl
@[simp] theorem State.setI_I (s : State) v : (s.setI v).I = v := rfl
@[simp] theorem State.setI_pc (s : State) v : (s.setI v).pc = s.pc := rfl
@[simp] theorem State.setI_sp (s : State) v : (s.setI v).sp = s.sp := rfl
@[simp] theorem State.setI_stack (s : State) v : (s.setI v).stack = s.stack := rfl
@[simp] theorem State.setI_DT (s : State) v : (s.setI v).DT = s.DT := rfl
@[simp] theorem State.setI_ST (s : State) v : (s.setI v).ST = s.ST := rfl
@[simp] theorem State.setI_mem (s : State) v : (s.setI v).mem = s.mem := rfl
@[simp] theorem State.setI_fb (s : State) v : (s.setI v).fb = s.fb := rfl
@[simp] theorem State.setI_redraw (s : State) v : (s.setI v).redraw = s.redraw := rfl
@[simp] theorem State.setI_keys (s : State) v : (s.setI v).keys = s.keys := rfl
@[simp] theorem State.setI_fault (s : State) v : (s.setI v).fault = s.fault := rfl
@[simp] theorem State.setI_draws (s : State) v : (s.setI v).draws = s.draws := rfl
@[simp] theorem State.setI_readV (s : State) v (r : Reg) : (s.setI v).readV r = s.readV r := rfl
@[simp] theorem State.setI_self (s : State) : s.setI s.I = s := rfl
@[simp] theorem State.setI_setI (s : State) v w : (s.setI v).setI w = s.setI w := rfl

/-! `setPc` -/
@[simp] theorem State.setPc_V (s : State) v : (s.setPc v).V = s.V := rfl
@[simp] theorem State.setPc_I (s : State) v : (s.setPc v).I = s.I := rfl
@[simp] theorem State.setPc_pc (s : State) v : (s.setPc v).pc = v := rfl
@[simp] theorem State.setPc_sp (s : State) v : (s.setPc v).sp = s.sp := rfl
@[simp] theorem State.setPc_stack (s : State) v : (s.setPc v).stack = s.stack := rfl
@[simp] theorem State.setPc_DT (s : State) v : (s.setPc v).DT = s.DT := rfl
@[simp] theorem State.setPc_ST (s : State) v : (s.setPc v).ST = s.ST := rfl
@[simp] theorem State.setPc_mem (s : State) v : (s.setPc v).mem = s.mem := rfl
@[simp] theorem State.setPc_fb (s : State) v : (s.setPc v).fb = s.fb := rfl
@[simp] theorem State.setPc_redraw (s : State) v : (s.setPc v).redraw = s.redraw := rfl
@[simp] theorem State.setPc_keys (s : State) v : (s.setPc v).keys = s.keys := rfl
@[simp] theorem State.setPc_fault (s : State) v : (s.setPc v).fault = s.fault := rfl
@[simp] theorem State.setPc_draws (s : State) v : (s.setPc v).draws = s.draws := rfl
@[simp] theorem State.setPc_readV (s : State) v (r : Reg) : (s.setPc v).readV r = s.readV r := rfl
@[simp] theorem State.setPc_self (s : State) : s.setPc s.pc = s := rfl
@[simp] theorem State.setPc_setPc (s : State) v w : (s.setPc v).setPc w = s.setPc w := rfl

/-! `setSp` -/
@[simp] theorem State.setSp_V (s : State) v : (s.setSp v).V = s.V := rfl
@[simp] theorem State.setSp_I (s : State) v : (s.setSp v).I = s.I := rfl
@[simp] theorem State.setSp_pc (s : State) v : (s.setSp v).pc = s.pc := rfl
@[simp] theorem State.setSp_sp (s : State) v : (s.setSp v).sp = v := rfl
@[simp] theorem State.setSp_stack (s : State) v : (s.setSp v).stack = s.stack := rfl
@[simp] theorem State.setSp_DT (s : State) v : (s.setSp v).DT = s.DT := rfl
@[simp] theorem State.setSp_ST (s : State) v : (s.setSp v).ST = s.ST := rfl
@[simp] theorem State.setSp_mem (s : State) v : (s.setSp v).mem = s.mem := rfl
@[simp] theorem State.setSp_fb (s : State) v : (s.setSp v).fb = s.fb := rfl
@[simp] theorem State.setSp_redraw (s : State) v : (s.setSp v).redraw = s.redraw := rfl
@[simp] theorem State.setSp_keys (s : State) v : (s.setSp v).keys = s.keys := rfl
@[simp] theorem State.setSp_fault (s : State) v : (s.setSp v).fault = s.fault := rfl
@[simp] theorem State.setSp_draws (s : State) v : (s.setSp v).draws = s.draws := rfl
@[simp] theorem State.setSp_readV (s : State) v (r : Reg) : (s.setSp v).readV r = s.readV r := rfl
@[simp] theorem State.setSp_self (s : State) : s.setSp s.sp = s := rfl
@[simp] theorem State.setSp_setSp (s : State) v w : (s.setSp v).setSp w = s.setSp w := rfl

/-! `setStack` -/
@[simp] theorem State.setStack_V (s : State) v : (s.setStack v).V = s.V := rfl
@[simp] theorem State.setStack_I (s : State) v : (s.setStack v).I = s.I := rfl
@[simp] theorem State.setStack_pc (s : State) v : (s.setStack v).pc = s.pc := rfl
@[simp] theorem State.setStack_sp (s : State) v : (s.setStack v).sp = s.sp := rfl
@[simp] theorem State.setStack_stack (s : State) v : (s.setStack v).stack = v := rfl
@[simp] theorem State.setStack_DT (s : State) v : (s.setStack v).DT = s.DT := rfl
@[simp] theorem State.setStack_ST (s : State) v : (s.setStack v).ST = s.ST := rfl
@[simp] theorem State.setStack_mem (s : State) v : (s.setStack v).mem = s.mem := rfl
@[simp] theorem State.setStack_fb (s : State) v : (s.setStack v).fb = s.fb := rfl
@[simp] theorem State.setStack_redraw (s : State) v : (s.setStack v).redraw = s.redraw := rfl
@[simp] theorem State.setStack_keys (s : State) v : (s.setStack v).keys = s.keys := rfl
@[simp] theorem State.setStack_fault (s : State) v : (s.setStack v).fault = s.fault := rfl
@[simp] theorem State.setStack_draws (s : State) v : (s.setStack v).draws = s.draws := rfl
@[simp] theorem State.setStack_readV (s : State) v (r : Reg) : (s.setStack v).readV r = s.readV r := rfl
@[simp] theorem State.setStack_self (s : State) : s.setStack s.stack = s := rfl
@[simp] theorem State.setStack_setStack (s : State) v w : (s.setStack v).setStack w = s.setStack w := rfl

/-! `setDT` -/
@[simp] theorem State.setDT_V (s : State) v : (s.setDT v).V = s.V := rfl
@[simp] theorem State.setDT_I (s : State) v : (s.setDT v).I = s.I := rfl
@[simp] theorem State.setDT_pc (s : State) v : (s.setDT v).pc = s.pc := rfl
@[simp] theorem State.setDT_sp (s : State) v : (s.setDT v).sp = s.sp := rfl
@[simp] theorem State.setDT_stack (s : State) v : (s.setDT v).stack = s.stack := rfl
@[simp] theorem State.setDT_DT (s : State) v : (s.setDT v).DT = v := rfl
@[simp] theorem State.setDT_ST (s : State) v : (s.setDT v).ST = s.ST := rfl
@[simp] theorem State.setDT_mem (s : State) v : (s.setDT v).mem = s.mem := rfl
@[simp] theorem State.setDT_fb (s : State) v : (s.setDT v).fb = s.fb := rfl
@[simp] theorem State.setDT_redraw (s : State) v : (s.setDT v).redraw = s.redraw := rfl
@[simp] theorem State.setDT_keys (s : State) v : (s.setDT v).keys = s.keys := rfl
@[simp] theorem State.setDT_fault (s : State) v : (s.setDT v).fault = s.fault := rfl
@[simp] theorem State.setDT_draws (s : State) v : (s.setDT v).draws = s.draws := rfl
@[simp] theorem State.setDT_readV (s : State) v (r : Reg) : (s.setDT v).readV r = s.readV r := rfl
@[simp] theorem State.setDT_self (s : State) : s.setDT s.DT = s := rfl
@[simp] theorem State.setDT_setDT (s : State) v w : (s.setDT v).setDT w = s.setDT w := rfl

/-! `setST` -/
@[simp] theorem State.setST_V (s : State) v : (s.setST v).V = s.V := rfl
@[simp] theorem State.setST_I (s : State) v : (s.setST v).I = s.I := rfl
@[simp] theorem State.setST_pc (s : State) v : (s.setST v).pc = s.pc := rfl
@[simp] theorem State.setST_sp (s : State) v : (s.setST v).sp = s.sp := rfl
@[simp] theorem State.setST_stack (s : State) v : (s.setST v).stack = s.stack := rfl
@[simp] theorem State.setST_DT (s : State) v : (s.setST v).DT = s.DT := rfl
@[simp] theorem State.setST_ST (s : State) v : (s.setST v).ST = v := rfl
@[simp] theorem State.setST_mem (s : State) v : (s.setST v).mem = s.mem := rfl
@[simp] theorem State.setST_fb (s : State) v : (s.setST v).fb = s.fb := rfl
@[simp] theorem State.setST_redraw (s : State) v : (s.setST v).redraw = s.redraw := rfl
@[simp] theorem State.setST_keys (s : State) v : (s.setST v).keys = s.keys := rfl
@[simp] theorem State.setST_fault (s : State) v : (s.setST v).fault = s.fault := rfl
@[simp] theorem State.setST_draws (s : State) v : (s.setST v).draws = s.draws := rfl
@[simp] theorem State.setST_readV (s : State) v (r : Reg) : (s.setST v).readV r = s.readV r := rfl
@[simp] theorem State.setST_self (s : State) : s.setST s.ST = s := rfl
@[simp] theorem State.setST_setST (s : State) v w : (s.setST v).setST w = s.setST w := rfl

/-! `setMem` -/
@[simp] theorem State.setMem_V (s : State) v : (s.setMem v).V = s.V := rfl
@[simp] theorem State.setMem_I (s : State) v : (s.setMem v).I = s.I := rfl
@[simp] theorem State.setMem_pc (s : State) v : (s.setMem v).pc = s.pc := rfl
@[simp] theorem State.setMem_sp (s : State) v : (s.setMem v).sp = s.sp := rfl
@[simp] theorem State.setMem_stack (s : State) v : (s.setMem v).stack = s.stack := rfl
@[simp] theorem State.setMem_DT (s : State) v : (s.setMem v).DT = s.DT := rfl
@[simp] theorem State.setMem_ST (s : State) v : (s.setMem v).ST = s.ST := rfl
@[simp] theorem State.setMem_mem (s : State) v : (s.setMem v).mem = v := rfl
@[simp] theorem State.setMem_fb (s : State) v : (s.setMem v).fb = s.fb := rfl
@[simp] theorem State.setMem_redraw (s : State) v : (s.setMem v).redraw = s.redraw := rfl
@[simp] theorem State.setMem_keys (s : State) v : (s.setMem v).keys = s.keys := rfl
@[simp] theorem State.setMem_fault (s : State) v : (s.setMem v).fault = s.fault := rfl
@[simp] theorem State.setMem_draws (s : State) v : (s.setMem v).draws = s.draws := rfl
@[simp] theorem State.setMem_readV (s : State) v (r : Reg) : (s.setMem v).readV r = s.readV r := rfl
@[simp] theorem State.setMem_self (s : State) : s.setMem s.mem = s := rfl
@[simp] theorem State.setMem_setMem (s : State) v w : (s.setMem v).setMem w = s.setMem w := rfl

/-! `setFb` -/
@[simp] theorem State.setFb_V (s : State) v : (s.setFb v).V = s.V := rfl
@[simp] theorem State.setFb_I (s : State) v : (s.setFb v).I = s.I := rfl
@[simp] theorem State.setFb_pc (s : State) v : (s.setFb v).pc = s.pc := rfl
@[simp] theorem State.setFb_sp (s : State) v : (s.setFb v).sp = s.sp := rfl
@[simp] theorem State.setFb_stack (s : State) v : (s.setFb v).stack = s.stack := rfl
@[simp] theorem State.setFb_DT (s : State) v : (s.setFb v).DT = s.DT := rfl
@[simp] theorem State.setFb_ST (s : State) v : (s.setFb v).ST = s.ST := rfl
@[simp] theorem State.setFb_mem (s : State) v : (s.setFb v).mem = s.mem := rfl
@[simp] theorem State.setFb_fb (s : State) v : (s.setFb v).fb = v := rfl
@[simp] theorem State.setFb_redraw (s : State) v : (s.setFb v).redraw = s.redraw := rfl
@[simp] theorem State.setFb_keys (s : State) v : (s.setFb v).keys = s.keys := rfl
@[simp] theorem State.setFb_fault (s : State) v : (s.setFb v).fault = s.fault := rfl
@[simp] theorem State.setFb_draws (s : State) v : (s.setFb v).draws = s.draws := rfl
@[simp] theorem State.setFb_readV (s : State) v (r : Reg) : (s.setFb v).readV r = s.readV r := rfl
@[simp] theorem State.setFb_self (s : State) : s.setFb s.fb = s := rfl
@[simp] theorem State.setFb_setFb (s : State) v w : (s.setFb v).setFb w = s.setFb w := rfl

/-! `setRedraw` -/
@[simp] theorem State.setRedraw_V (s : State) v : (s.setRedraw v).V = s.V := rfl
@[simp] theorem State.setRedraw_I (s : State) v : (s.setRedraw v).I = s.I := rfl
@[simp] theorem State.setRedraw_pc (s : State) v : (s.setRedraw v).pc = s.pc := rfl
@[simp] theorem State.setRedraw_sp (s : State) v : (s.setRedraw v).sp = s.sp := rfl
@[simp] theorem State.setRedraw_stack (s : State) v : (s.setRedraw v).stack = s.stack := rfl
@[simp] theorem State.setRedraw_DT (s : State) v : (s.setRedraw v).DT = s.DT := rfl
@[simp] theorem State.setRedraw_ST (s : State) v : (s.setRedraw v).ST = s.ST := rfl
@[simp] theorem State.setRedraw_mem (s : State) v : (s.setRedraw v).mem = s.mem := rfl
@[simp] theorem State.setRedraw_fb (s : State) v : (s.setRedraw v).fb = s.fb := rfl
@[simp] theorem State.setRedraw_redraw (s : State) v : (s.setRedraw v).redraw = v := rfl
@[simp] theorem State.setRedraw_keys (s : State) v : (s.setRedraw v).keys = s.keys := rfl
@[simp] theorem State.setRedraw_fault (s : State) v : (s.setRedraw v).fault = s.fault := rfl
@[simp] theorem State.setRedraw_draws (s : State) v : (s.setRedraw v).draws = s.draws := rfl
@[simp] theorem State.setRedraw_readV (s : State) v (r : Reg) : (s.setRedraw v).readV r = s.readV r := rfl
@[simp] theorem State.setRedraw_self (s : State) : s.setRedraw s.redraw = s := rfl
@[simp] theorem State.setRedraw_setRedraw (s : State) v w : (s.setRedraw v).setRedraw w = s.setRedraw w := rfl

/-! `setKeys` -/
@[simp] theorem State.setKeys_V (s : State) v : (s.setKeys v).V = s.V := rfl
@[simp] theorem State.setKeys_I (s : State) v : (s.setKeys v).I = s.I := rfl
@[simp] theorem State.setKeys_pc (s : State) v : (s.setKeys v).pc = s.pc := rfl
@[simp] theorem State.setKeys_sp (s : State) v : (s.setKeys v).sp = s.sp := rfl
@[simp] theorem State.setKeys_stack (s : State) v : (s.setKeys v).stack = s.stack := rfl
@[simp] theorem State.setKeys_DT (s : State) v : (s.setKeys v).DT = s.DT := rfl
@[simp] theorem State.setKeys_ST (s : State) v : (s.setKeys v).ST = s.ST := rfl
@[simp] theorem State.setKeys_mem (s : State) v : (s.setKeys v).mem = s.mem := rfl
@[simp] theorem State.setKeys_fb (s : State) v : (s.setKeys v).fb = s.fb := rfl
@[simp] theorem State.setKeys_redraw (s : State) v : (s.setKeys v).redraw = s.redraw := rfl
@[simp] theorem State.setKeys_keys (s : State) v : (s.setKeys v).keys = v := rfl
@[simp] theorem State.setKeys_fault (s : State) v : (s.setKeys v).fault = s.fault := rfl
@[simp] theorem State.setKeys_draws (s : State) v : (s.setKeys v).draws = s.draws := rfl
@[simp] theorem State.setKeys_readV (s : State) v (r : Reg) : (s.setKeys v).readV r = s.readV r := rfl
@[simp] theorem State.setKeys_self (s : State) : s.setKeys s.keys = s := rfl
@[simp] theorem State.setKeys_setKeys (s : State) v w : (s.setKeys v).setKeys w = s.setKeys w := rfl

/-! `setFault` -/
@[simp] theorem State.setFault_V (s : State) v : (s.setFault v).V = s.V := rfl
@[simp] theorem State.setFault_I (s : State) v : (s.setFault v).I = s.I := rfl
@[simp] theorem State.setFault_pc (s : State) v : (s.setFault v).pc = s.pc := rfl
@[simp] theorem State.setFault_sp (s : State) v : (s.setFault v).sp = s.sp := rfl
@[simp] theorem State.setFault_stack (s : State) v : (s.setFault v).stack = s.stack := rfl
@[simp] theorem State.setFault_DT (s : State) v : (s.setFault v).DT = s.DT := rfl
@[simp] theorem State.setFault_ST (s : State) v : (s.setFault v).ST = s.ST := rfl
@[simp] theorem State.setFault_mem (s : State) v : (s.setFault v).mem = s.mem := rfl
@[simp] theorem State.setFault_fb (s : State) v : (s.setFault v).fb = s.fb := rfl
@[simp] theorem State.setFault_redraw (s : State) v : (s.setFault v).redraw = s.redraw := rfl
@[simp] theorem State.setFault_keys (s : State) v : (s.setFault v).keys = s.keys := rfl
@[simp] theorem State.setFault_fault (s : State) v : (s.setFault v).fault = v := rfl
@[simp] theorem State.setFault_draws (s : State) v : (s.setFault v).draws = s.draws := rfl
@[simp] theorem State.setFault_readV (s : State) v (r : Reg) : (s.setFault v).readV r = s.readV r := rfl
@[simp] theorem State.setFault_self (s : State) : s.setFault s.fault = s := rfl
@[simp] theorem State.setFault_setFault (s : State) v w : (s.setFault v).setFault w = s.setFault w := rfl

/-! `setDraws` -/
@[simp] theorem State.setDraws_toBlock (s : State) v : (s.setDraws v).toBlock = s.toBlock := rfl
@[simp] theorem State.setDraws_V (s : State) v : (s.setDraws v).V = s.V := rfl
@[simp] theorem State.setDraws_I (s : State) v : (s.setDraws v).I = s.I := rfl
@[simp] theorem State.setDraws_pc (s : State) v : (s.setDraws v).pc = s.pc := rfl
@[simp] theorem State.setDraws_sp (s : State) v : (s.setDraws v).sp = s.sp := rfl
@[simp] theorem State.setDraws_stack (s : State) v : (s.setDraws v).stack = s.stack := rfl
@[simp] theorem State.setDraws_DT (s : State) v : (s.setDraws v).DT = s.DT := rfl
@[simp] theorem State.setDraws_ST (s : State) v : (s.setDraws v).ST = s.ST := rfl
@[simp] theorem State.setDraws_mem (s : State) v : (s.setDraws v).mem = s.mem := rfl
@[simp] theorem State.setDraws_fb (s : State) v : (s.setDraws v).fb = s.fb := rfl
@[simp] theorem State.setDraws_redraw (s : State) v : (s.setDraws v).redraw = s.redraw := rfl
@[simp] theorem State.setDraws_keys (s : State) v : (s.setDraws v).keys = s.keys := rfl
@[simp] theorem State.setDraws_fault (s : State) v : (s.setDraws v).fault = s.fault := rfl
@[simp] theorem State.setDraws_draws (s : State) v : (s.setDraws v).draws = v := rfl
@[simp] theorem State.setDraws_readV (s : State) v (r : Reg) : (s.setDraws v).readV r = s.readV r := rfl
@[simp] theorem State.setDraws_self (s : State) : s.setDraws s.draws = s := rfl
@[simp] theorem State.setDraws_setDraws (s : State) v w : (s.setDraws v).setDraws w = s.setDraws w := rfl

/-! The record of draws commutes with every update of the block, and is brought outermost. -/
@[simp] theorem State.setV_setDraws (s : State) n v : (s.setDraws n).setV v = (s.setV v).setDraws n := rfl
@[simp] theorem State.setI_setDraws (s : State) n v : (s.setDraws n).setI v = (s.setI v).setDraws n := rfl
@[simp] theorem State.setPc_setDraws (s : State) n v : (s.setDraws n).setPc v = (s.setPc v).setDraws n := rfl
@[simp] theorem State.setSp_setDraws (s : State) n v : (s.setDraws n).setSp v = (s.setSp v).setDraws n := rfl
@[simp] theorem State.setStack_setDraws (s : State) n v : (s.setDraws n).setStack v = (s.setStack v).setDraws n := rfl
@[simp] theorem State.setDT_setDraws (s : State) n v : (s.setDraws n).setDT v = (s.setDT v).setDraws n := rfl
@[simp] theorem State.setST_setDraws (s : State) n v : (s.setDraws n).setST v = (s.setST v).setDraws n := rfl
@[simp] theorem State.setMem_setDraws (s : State) n v : (s.setDraws n).setMem v = (s.setMem v).setDraws n := rfl
@[simp] theorem State.setFb_setDraws (s : State) n v : (s.setDraws n).setFb v = (s.setFb v).setDraws n := rfl
@[simp] theorem State.setRedraw_setDraws (s : State) n v : (s.setDraws n).setRedraw v = (s.setRedraw v).setDraws n := rfl
@[simp] theorem State.setKeys_setDraws (s : State) n v : (s.setDraws n).setKeys v = (s.setKeys v).setDraws n := rfl
@[simp] theorem State.setFault_setDraws (s : State) n v : (s.setDraws n).setFault v = (s.setFault v).setDraws n := rfl
@[simp] theorem State.writeV_setDraws (s : State) n x v : (s.setDraws n).writeV x v = (s.writeV x v).setDraws n := rfl

/-! `writeV` -/

@[simp] theorem State.writeV_I (s : State) (x : Reg) v : (s.writeV x v).I = s.I := rfl
@[simp] theorem State.writeV_pc (s : State) (x : Reg) v : (s.writeV x v).pc = s.pc := rfl
@[simp] theorem State.writeV_sp (s : State) (x : Reg) v : (s.writeV x v).sp = s.sp := rfl
@[simp] theorem State.writeV_stack (s : State) (x : Reg) v : (s.writeV x v).stack = s.stack := rfl
@[simp] theorem State.writeV_DT (s : State) (x : Reg) v : (s.writeV x v).DT = s.DT := rfl
@[simp] theorem State.writeV_ST (s : State) (x : Reg) v : (s.writeV x v).ST = s.ST := rfl
@[simp] theorem State.writeV_mem (s : State) (x : Reg) v : (s.writeV x v).mem = s.mem := rfl
@[simp] theorem State.writeV_fb (s : State) (x : Reg) v : (s.writeV x v).fb = s.fb := rfl
@[simp] theorem State.writeV_redraw (s : State) (x : Reg) v : (s.writeV x v).redraw = s.redraw := rfl
@[simp] theorem State.writeV_keys (s : State) (x : Reg) v : (s.writeV x v).keys = s.keys := rfl
@[simp] theorem State.writeV_fault (s : State) (x : Reg) v : (s.writeV x v).fault = s.fault := rfl
@[simp] theorem State.writeV_draws (s : State) (x : Reg) v : (s.writeV x v).draws = s.draws := rfl

theorem State.readV_writeV (s : State) (x r : Reg) (v : Byte) :
    (s.writeV x v).readV r = if r = x then v else s.readV r := by
  simp only [State.readV, State.writeV, State.setV_V, Vector.getElem_set]
  by_cases h : r = x
  · simp [h]
  · have hv : x.val ≠ r.val := fun e => h (Fin.ext e.symm)
    simp [h, hv]

@[simp] theorem State.readV_writeV_same (s : State) (x : Reg) (v : Byte) : (s.writeV x v).readV x = v := by
  simp [State.readV_writeV]

theorem State.readV_writeV_of_ne (s : State) {x r : Reg} (v : Byte) (h : r ≠ x) :
    (s.writeV x v).readV r = s.readV r := by
  simp [State.readV_writeV, h]

/-! The compound updates as single ones. -/

@[simp] theorem State.advance_eq (s : State) : s.advance = s.setPc (s.pc + 2) := rfl

@[simp] theorem State.skipIf_eq (s : State) (c : Bool) : s.skipIf c = s.setPc (if c then s.pc + 4 else s.pc + 2) := rfl

@[simp] theorem State.takeFault_eq (s : State) (r : FaultRecord) : s.takeFault r = s.setFault (some r) := rfl

@[simp] theorem State.storeData_eq (s : State) (bs : List Byte) :
    s.storeData bs = s.setMem (s.mem.writeBytes s.dataBase bs) := rfl

@[simp] theorem State.writeFlag_eq (s : State) (b : Bool) : s.writeFlag b = s.writeV VF (flagByte b) := rfl

@[simp] theorem State.writeResultFlag_eq (s : State) (x : Reg) (v : Byte) (b : Bool) :
    s.writeResultFlag x v b = (s.writeV x v).writeV VF (flagByte b) := rfl

/-! The load of consecutive registers. -/

theorem State.writeRegs_other (bs : List Byte) (s : State) (k : Nat) (r : Reg) (h : r.val < k ∨ k + bs.length ≤ r.val) :
    (s.writeRegs k bs).readV r = s.readV r := by
  induction bs generalizing s k with
  | nil => rfl
  | cons b bs ih =>
    simp only [State.writeRegs]
    rw [ih _ _ (by simp at h; omega)]
    split
    · exact State.readV_writeV_of_ne _ _ (fun e => by subst e; simp at h)
    · rfl

theorem State.writeRegs_loaded (bs : List Byte) (s : State) (k : Nat) (r : Reg) (hk : k ≤ r.val)
    (hr : r.val - k < bs.length) : (s.writeRegs k bs).readV r = bs[r.val - k] := by
  induction bs generalizing s k with
  | nil => simp at hr
  | cons b bs ih =>
    simp only [State.writeRegs]
    by_cases e : k = r.val
    · subst e
      rw [State.writeRegs_other _ _ _ _ (Or.inl (Nat.lt_succ_self _))]
      simp [r.isLt]
    · have h1 : r.val - k = (r.val - (k + 1)) + 1 := by omega
      rw [ih _ _ (by omega) (by simp at hr; omega)]
      simp [h1]

@[simp] theorem State.writeRegs_I (bs : List Byte) (s : State) (k : Nat) : (s.writeRegs k bs).I = s.I := by
  induction bs generalizing s k with
  | nil => rfl
  | cons b bs ih => simp only [State.writeRegs, ih]; split <;> rfl
@[simp] theorem State.writeRegs_pc (bs : List Byte) (s : State) (k : Nat) : (s.writeRegs k bs).pc = s.pc := by
  induction bs generalizing s k with
  | nil => rfl
  | cons b bs ih => simp only [State.writeRegs, ih]; split <;> rfl
@[simp] theorem State.writeRegs_sp (bs : List Byte) (s : State) (k : Nat) : (s.writeRegs k bs).sp = s.sp := by
  induction bs generalizing s k with
  | nil => rfl
  | cons b bs ih => simp only [State.writeRegs, ih]; split <;> rfl
@[simp] theorem State.writeRegs_stack (bs : List Byte) (s : State) (k : Nat) : (s.writeRegs k bs).stack = s.stack := by
  induction bs generalizing s k with
  | nil => rfl
  | cons b bs ih => simp only [State.writeRegs, ih]; split <;> rfl
@[simp] theorem State.writeRegs_DT (bs : List Byte) (s : State) (k : Nat) : (s.writeRegs k bs).DT = s.DT := by
  induction bs generalizing s k with
  | nil => rfl
  | cons b bs ih => simp only [State.writeRegs, ih]; split <;> rfl
@[simp] theorem State.writeRegs_ST (bs : List Byte) (s : State) (k : Nat) : (s.writeRegs k bs).ST = s.ST := by
  induction bs generalizing s k with
  | nil => rfl
  | cons b bs ih => simp only [State.writeRegs, ih]; split <;> rfl
@[simp] theorem State.writeRegs_mem (bs : List Byte) (s : State) (k : Nat) : (s.writeRegs k bs).mem = s.mem := by
  induction bs generalizing s k with
  | nil => rfl
  | cons b bs ih => simp only [State.writeRegs, ih]; split <;> rfl
@[simp] theorem State.writeRegs_fb (bs : List Byte) (s : State) (k : Nat) : (s.writeRegs k bs).fb = s.fb := by
  induction bs generalizing s k with
  | nil => rfl
  | cons b bs ih => simp only [State.writeRegs, ih]; split <;> rfl
@[simp] theorem State.writeRegs_redraw (bs : List Byte) (s : State) (k : Nat) : (s.writeRegs k bs).redraw = s.redraw := by
  induction bs generalizing s k with
  | nil => rfl
  | cons b bs ih => simp only [State.writeRegs, ih]; split <;> rfl
@[simp] theorem State.writeRegs_keys (bs : List Byte) (s : State) (k : Nat) : (s.writeRegs k bs).keys = s.keys := by
  induction bs generalizing s k with
  | nil => rfl
  | cons b bs ih => simp only [State.writeRegs, ih]; split <;> rfl
@[simp] theorem State.writeRegs_fault (bs : List Byte) (s : State) (k : Nat) : (s.writeRegs k bs).fault = s.fault := by
  induction bs generalizing s k with
  | nil => rfl
  | cons b bs ih => simp only [State.writeRegs, ih]; split <;> rfl
@[simp] theorem State.writeRegs_draws (bs : List Byte) (s : State) (k : Nat) : (s.writeRegs k bs).draws = s.draws := by
  induction bs generalizing s k with
  | nil => rfl
  | cons b bs ih => simp only [State.writeRegs, ih]; split <;> rfl

theorem State.regsUpTo_length (s : State) (x : Reg) : (s.regsUpTo x).length = x.val + 1 := by
  have := x.isLt
  simp only [State.regsUpTo, List.length_take, Vector.length_toList]
  omega

theorem State.regsUpTo_get (s : State) (x : Reg) (k : Nat) (h : k < (s.regsUpTo x).length) (hk : k < 16) :
    (s.regsUpTo x)[k] = s.readV ⟨k, hk⟩ := by
  simp [State.regsUpTo, State.readV]

end Sys2Proof.Machine
end

