-- ==== Sys2Proof/Laws/Display.lean ====
section
/-! SUPPORT. The laws of the framebuffer's pixels. -/

namespace Sys2Proof.Machine

/-- Two framebuffers with the same pixels are equal. -/
theorem Framebuffer.ext_pixel (f g : Framebuffer) (h : ∀ r c, Framebuffer.pixel f r c = Framebuffer.pixel g r c) :
    f = g := by
  apply Vector.ext
  intro i hi
  apply Vector.ext
  intro j hj
  exact h ⟨i, hi⟩ ⟨j, hj⟩

/-- Toggling a pixel negates it and leaves every other pixel alone. -/
theorem Framebuffer.pixel_toggle (fb : Framebuffer) (r r' : Fin 32) (c c' : Fin 64) :
    Framebuffer.pixel (Framebuffer.toggle fb r c) r' c' =
      if r' = r ∧ c' = c then !Framebuffer.pixel fb r c else Framebuffer.pixel fb r' c' := by
  simp only [Framebuffer.pixel, Framebuffer.toggle, Vector.getElem_set]
  by_cases hr : r = r'
  · subst hr
    by_cases hc : c = c'
    · subst hc; simp
    · have hv : c.val ≠ c'.val := fun e => hc (Fin.ext e)
      simp [hv, Ne.symm hc]
  · have hv : r.val ≠ r'.val := fun e => hr (Fin.ext e)
    simp [hv, Ne.symm hr]

@[simp] theorem Framebuffer.pixel_blank (r : Fin 32) (c : Fin 64) : Framebuffer.pixel Framebuffer.blank r c = false := by
  simp [Framebuffer.pixel, Framebuffer.blank]

theorem plot_pixel (d : Framebuffer × Bool) (bit : Bool) (r r' : Fin 32) (c c' : Fin 64) :
    Framebuffer.pixel (plot d bit r c).1 r' c' =
      if bit = true ∧ r' = r ∧ c' = c then !Framebuffer.pixel d.1 r' c' else Framebuffer.pixel d.1 r' c' := by
  unfold plot
  cases bit
  · simp
  · simp only [if_true, Framebuffer.pixel_toggle, true_and]
    split
    · rename_i h; simp [h.1, h.2]
    · rfl

theorem plot_collision (d : Framebuffer × Bool) (bit : Bool) (r : Fin 32) (c : Fin 64) :
    (plot d bit r c).2 = (d.2 || (bit && Framebuffer.pixel d.1 r c)) := by
  unfold plot
  cases bit <;> simp

end Sys2Proof.Machine
end

