-- ==== Sys2Proof/Laws/Memory.lean ====
section
/-! SUPPORT. The laws of memory: read after write, the bytes of a block write, and that every operation keeps the
canonical form. -/

namespace Sys2Proof.Machine

theorem Memory.read_cons_self (m : Memory) (a : Nat) (v : Byte) (h : v ≠ Memory.unlisted a ∨ m.read a = Memory.unlisted a) :
    (Memory.cons a v m).read a = v := by
  unfold Memory.cons
  split
  · rename_i e; subst e; simpa using h
  · simp [Memory.read]

theorem Memory.read_cons_of_ne (m : Memory) {a b : Nat} (v : Byte) (h : b ≠ a) : (Memory.cons a v m).read b = m.read b := by
  unfold Memory.cons
  split
  · rfl
  · simp [Memory.read, Ne.symm h]

/-- A write leaves every other address alone, whatever the memory. -/
theorem Memory.read_write_of_ne (m : Memory) {a b : Nat} (v : Byte) (h : b ≠ a) : (m.write a v).read b = m.read b := by
  induction m with
  | nil => simpa [Memory.write] using Memory.read_cons_of_ne [] v h
  | cons c m ih =>
    obtain ⟨k, w⟩ := c
    simp only [Memory.write]
    split
    · exact Memory.read_cons_of_ne _ v h
    · split
      · rename_i e
        subst e
        rw [Memory.read_cons_of_ne _ v h]
        simp [Memory.read, Ne.symm h]
      · simp only [Memory.read, ih]

/-- An address below the canonical part is unlisted. -/
theorem Memory.read_below (m : Memory) (lo a : Nat) (hw : Memory.wfFrom lo m = true) (h : a < lo) :
    m.read a = Memory.unlisted a := by
  induction m generalizing lo with
  | nil => rfl
  | cons c m ih =>
    obtain ⟨k, w⟩ := c
    simp only [Memory.wfFrom, Bool.and_eq_true, decide_eq_true_eq] at hw
    have hne : k ≠ a := by omega
    simp only [Memory.read, if_neg hne]
    exact ih (k + 1) hw.2 (by omega)

theorem Memory.read_write_same_from (m : Memory) (lo a : Nat) (v : Byte) (hw : Memory.wfFrom lo m = true) :
    (m.write a v).read a = v := by
  induction m generalizing lo with
  | nil => exact Memory.read_cons_self [] a v (Or.inr rfl)
  | cons c m ih =>
    obtain ⟨k, w⟩ := c
    have hw' := hw
    simp only [Memory.wfFrom, Bool.and_eq_true, decide_eq_true_eq] at hw
    simp only [Memory.write]
    split
    · rename_i hlt
      refine Memory.read_cons_self _ a v (Or.inr ?_)
      have : Memory.wfFrom k ((k, w) :: m) = true := by simp [Memory.wfFrom, hw.1.1.2, hw.1.2, hw.2]
      exact Memory.read_below _ k a this hlt
    · split
      · rename_i e
        subst e
        exact Memory.read_cons_self _ a v (Or.inr (Memory.read_below _ _ _ hw.2 (Nat.lt_succ_self a)))
      · rename_i h1 h2
        simp only [Memory.read, if_neg (Ne.symm h2)]
        exact ih (k + 1) hw.2

/-- A read after a write to the same address gives the value written. -/
theorem Memory.read_write_same (m : Memory) (a : Nat) (v : Byte) (hw : m.wf = true) : (m.write a v).read a = v :=
  Memory.read_write_same_from m 0 a v hw

theorem Memory.wfFrom_mono (m : Memory) {lo hi : Nat} (h : lo ≤ hi) (hw : Memory.wfFrom hi m = true) :
    Memory.wfFrom lo m = true := by
  cases m with
  | nil => rfl
  | cons c m =>
    simp only [Memory.wfFrom, Bool.and_eq_true, decide_eq_true_eq] at hw ⊢
    exact ⟨⟨⟨by omega, hw.1.1.2⟩, hw.1.2⟩, hw.2⟩

theorem Memory.wfFrom_cons (m : Memory) {lo a : Nat} (v : Byte) (hlo : lo ≤ a) (ha : a < memSize)
    (hw : Memory.wfFrom (a + 1) m = true) : Memory.wfFrom lo (Memory.cons a v m) = true := by
  unfold Memory.cons
  split
  · exact Memory.wfFrom_mono m (by omega) hw
  · rename_i hv
    simp [Memory.wfFrom, hlo, ha, hv, hw]

theorem Memory.wfFrom_write (m : Memory) (lo a : Nat) (v : Byte) (hlo : lo ≤ a) (ha : a < memSize)
    (hw : Memory.wfFrom lo m = true) : Memory.wfFrom lo (m.write a v) = true := by
  induction m generalizing lo with
  | nil => exact Memory.wfFrom_cons [] v hlo ha rfl
  | cons c m ih =>
    obtain ⟨k, w⟩ := c
    have hw' := hw
    simp only [Memory.wfFrom, Bool.and_eq_true, decide_eq_true_eq] at hw
    simp only [Memory.write]
    split
    · rename_i hlt
      refine Memory.wfFrom_cons _ v hlo ha ?_
      simp only [Memory.wfFrom, Bool.and_eq_true, decide_eq_true_eq]
      exact ⟨⟨⟨by omega, hw.1.1.2⟩, hw.1.2⟩, hw.2⟩
    · split
      · rename_i e
        subst e
        exact Memory.wfFrom_cons _ v hlo ha hw.2
      · rename_i h1 h2
        simp only [Memory.wfFrom, Bool.and_eq_true, decide_eq_true_eq]
        exact ⟨hw.1, ih (k + 1) (by omega) hw.2⟩

/-- A write inside the address space keeps the canonical form. -/
theorem Memory.wf_write (m : Memory) (a : Nat) (v : Byte) (ha : a < memSize) (hw : m.wf = true) :
    (m.write a v).wf = true :=
  Memory.wfFrom_write m 0 a v (Nat.zero_le a) ha hw

/-- A block write inside the address space keeps the canonical form. -/
theorem Memory.wf_writeBytes (bs : List Byte) (m : Memory) (a : Nat) (ha : a + bs.length ≤ memSize) (hw : m.wf = true) :
    (m.writeBytes a bs).wf = true := by
  induction bs generalizing m a with
  | nil => exact hw
  | cons b bs ih =>
    simp only [List.length_cons] at ha
    exact ih _ _ (by omega) (Memory.wf_write m a b (by omega) hw)

/-- A block write leaves every address outside its bytes alone. -/
theorem Memory.read_writeBytes_other (bs : List Byte) (m : Memory) (a b : Nat) (h : b < a ∨ a + bs.length ≤ b) :
    (m.writeBytes a bs).read b = m.read b := by
  induction bs generalizing m a with
  | nil => rfl
  | cons v bs ih =>
    simp only [List.length_cons] at h
    simp only [Memory.writeBytes]
    rw [ih _ _ (by omega), Memory.read_write_of_ne _ _ (by omega)]

/-- A block write puts its bytes where it says. -/
theorem Memory.read_writeBytes_stored (bs : List Byte) (m : Memory) (a k : Nat) (hk : k < bs.length)
    (ha : a + bs.length ≤ memSize) (hw : m.wf = true) : (m.writeBytes a bs).read (a + k) = bs[k] := by
  induction bs generalizing m a k with
  | nil => simp at hk
  | cons v bs ih =>
    simp only [List.length_cons] at ha hk
    simp only [Memory.writeBytes]
    cases k with
    | zero =>
      rw [Memory.read_writeBytes_other _ _ _ _ (by omega)]
      exact Memory.read_write_same m a v hw
    | succ k =>
      have e : a + (k + 1) = (a + 1) + k := by omega
      rw [e, ih _ _ _ (by omega) (by omega) (Memory.wf_write m a v (by omega) hw)]
      rfl

theorem Memory.readBytes_length (m : Memory) (a n : Nat) : (m.readBytes a n).length = n := by
  induction n generalizing a with
  | zero => rfl
  | succ n ih => simp [Memory.readBytes, ih]

theorem Memory.readBytes_get (m : Memory) (a n k : Nat) (h : k < (m.readBytes a n).length) :
    (m.readBytes a n)[k] = m.read (a + k) := by
  induction n generalizing a k with
  | zero => simp [Memory.readBytes] at h
  | succ n ih =>
    cases k with
    | zero => rfl
    | succ k =>
      simp only [Memory.readBytes, List.getElem_cons_succ]
      rw [ih]
      congr 1
      omega

/-! ### The font load of `Reset` (70_reset_and_hazards.md R290) -/

theorem Font.length_toList (font : Font) : font.toList.length = fontLen := Vector.length_toList

theorem Memory.wf_loadFont (font : Font) : (Memory.loadFont font).wf = true :=
  Memory.wf_writeBytes _ _ _ (by rw [Font.length_toList]; decide) rfl

/-- The font area holds the given font. -/
theorem Memory.read_loadFont (font : Font) (k : Nat) (h : k < fontLen) : (Memory.loadFont font).read k = font[k] := by
  have e := Memory.read_writeBytes_stored font.toList [] 0 k (by simpa using h) (by rw [Font.length_toList]; decide) rfl
  simpa [Memory.loadFont] using e

/-- Above the font area cleared memory reads as 0. -/
theorem Memory.read_loadFont_above (font : Font) (a : Nat) (h : fontLen ≤ a) : (Memory.loadFont font).read a = 0#8 := by
  rw [Memory.loadFont, Memory.read_writeBytes_other _ _ _ _ (Or.inr (by simpa using h))]
  show fontTable.getD a 0#8 = 0#8
  rw [List.getD_eq_getElem?_getD, List.getElem?_eq_none (by exact h)]
  rfl

/-- The default font is what unlisted addresses read as, so that nothing is listed. -/
@[simp] theorem Memory.loadFont_default : Memory.loadFont defaultFont = [] := by decide

end Sys2Proof.Machine
end

