-- ==== Sys2Proof/Laws/Operations.lean ====
section
/-! SUPPORT. One law per shared operation: everything it can do. -/

namespace Sys2Proof.Machine

/-! ### The data bound (20_memory.md R70) -/

theorem State.dataOverrun_none (s : State) (m : Nat) :
    s.dataOverrun m = none ↔ m = 0 ∨ s.I.toNat + m - 1 ≤ 0xFFF := by
  unfold State.dataOverrun State.dataBase
  split <;> simp <;> omega

theorem State.dataOverrun_some (s : State) (m last : Nat) :
    s.dataOverrun m = some last ↔ m ≥ 1 ∧ s.I.toNat + m - 1 > 0xFFF ∧ last = s.I.toNat + m - 1 := by
  unfold State.dataOverrun State.dataBase
  split
  · simp; omega
  · simp; omega

theorem State.withData_fits (s : State) (i : Instr) (m : Nat) (access : Result)
    (h : m = 0 ∨ s.I.toNat + m - 1 ≤ 0xFFF) : s.withData i m access = access := by
  simp [State.withData, (State.dataOverrun_none s m).2 h]

theorem State.withData_overrun (s : State) (i : Instr) (m : Nat) (access : Result)
    (h1 : m ≥ 1) (h2 : s.I.toNat + m - 1 > 0xFFF) :
    s.withData i m access =
      .next (s.setFault (some ⟨.memOutOfBounds, some (encode i), some s.pc, some (s.I.toNat + m - 1)⟩)) := by
  simp [State.withData, (State.dataOverrun_some s m _).2 ⟨h1, h2, rfl⟩, State.raise]

/-- A checked access either fits, and is then the whole outcome, or is the fault. -/
theorem State.withData_cases (s : State) (i : Instr) (m : Nat) (access : Result) :
    ((m = 0 ∨ s.I.toNat + m - 1 ≤ 0xFFF) ∧ s.withData i m access = access) ∨
    (m ≥ 1 ∧ s.I.toNat + m - 1 > 0xFFF ∧ s.withData i m access =
      .next (s.setFault (some ⟨.memOutOfBounds, some (encode i), some s.pc, some (s.I.toNat + m - 1)⟩))) := by
  by_cases h : m = 0 ∨ s.I.toNat + m - 1 ≤ 0xFFF
  · exact Or.inl ⟨h, State.withData_fits s i m access h⟩
  · have h1 : m ≥ 1 := by omega
    have h2 : s.I.toNat + m - 1 > 0xFFF := by omega
    exact Or.inr ⟨h1, h2, State.withData_overrun s i m access h1 h2⟩

/-! ### The call stack (10_state.md R28, R29) -/

theorem State.push_some (s : State) (w : Word) (h : s.sp.toNat < 16) :
    s.push w = some ((s.setStack (s.stack.set s.sp.toNat w)).setSp (s.sp + 1)) := by
  simp [State.push, h]

theorem State.push_none (s : State) (w : Word) (h : 16 ≤ s.sp.toNat) : s.push w = none := by
  simp [State.push, Nat.not_lt.2 h]

theorem State.sp_sub_one (s : State) (h : 0 < s.sp.toNat) : (s.sp - 1).toNat = s.sp.toNat - 1 := by
  have := s.sp.isLt
  have h1 : (1 : Byte).toNat = 1 := rfl
  simp only [BitVec.toNat_sub, h1]
  omega

theorem State.sp_add_one (s : State) (h : s.sp.toNat < 16) : (s.sp + 1).toNat = s.sp.toNat + 1 := by
  have h1 : (1 : Byte).toNat = 1 := rfl
  simp only [BitVec.toNat_add, h1]
  omega

theorem State.pop_some (s : State) (h0 : 0 < s.sp.toNat) (h : s.sp.toNat ≤ 16) :
    s.pop = some (s.stack[s.sp.toNat - 1], s.setSp (s.sp - 1)) := by
  have e := State.sp_sub_one s h0
  have hlt : s.sp.toNat - 1 < 16 := by omega
  unfold State.pop
  rw [e, Vector.getElem?_eq_getElem hlt]
  rfl

theorem State.pop_none (s : State) (h : 16 < s.sp.toNat) : s.pop = none := by
  have e := State.sp_sub_one s (by omega)
  have hge : ¬ s.sp.toNat - 1 < 16 := by omega
  unfold State.pop
  rw [e, Vector.getElem?_eq_none (Nat.not_lt.1 hge)]
  rfl

/-! ### Fetch (20_memory.md R62, R69) -/

theorem State.fetchOpcode_none (s : State) : s.fetchOpcode = none ↔ s.pc.toNat + 1 > 0xFFF := by
  unfold State.fetchOpcode
  split <;> simp <;> omega

theorem State.fetchOpcode_some (s : State) (w : Word) :
    s.fetchOpcode = some w ↔
      s.pc.toNat + 1 ≤ 0xFFF ∧ w = joinBytes (s.mem.read s.pc.toNat) (s.mem.read (s.pc.toNat + 1)) := by
  unfold State.fetchOpcode
  split
  · simp; omega
  · simp only [Option.some.injEq]
    constructor
    · intro e; exact ⟨by omega, e.symm⟩
    · rintro ⟨_, e⟩; exact e.symm

/-! ### The step (30_encoding.md R100) -/

/-- Everything a cycle that answers a next state can have done. -/
theorem State.cycle_cases {s t : State} {run : Instr → State → Result} (h : s.cycle run = .next t) :
    (s.fault ≠ none ∧ t = s) ∨
    (s.fault = none ∧ s.fetchOpcode = none ∧ t = s.setFault (some ⟨.fetchOutOfBounds, none, some s.pc, none⟩)) ∨
    (∃ w e, s.fault = none ∧ s.fetchOpcode = some w ∧ decodeWord w = .error e ∧
      t = s.setFault (some ⟨.invalidOpcode, some w, some s.pc, none⟩)) ∨
    (∃ w i, s.fault = none ∧ s.fetchOpcode = some w ∧ decodeWord w = .ok i ∧ run i s = .next t) := by
  unfold State.cycle at h
  split at h
  · rename_i hf; cases h; exact Or.inl ⟨by simp [hf], rfl⟩
  · rename_i hf
    split at h
    · rename_i ho; cases h; exact Or.inr (Or.inl ⟨hf, ho, rfl⟩)
    · rename_i w ho
      split at h
      · rename_i e he; cases h; exact Or.inr (Or.inr (Or.inl ⟨w, e, hf, ho, he, rfl⟩))
      · rename_i i hi; exact Or.inr (Or.inr (Or.inr ⟨w, i, hf, ho, hi, h⟩))

theorem State.cycle_halted (s : State) (run : Instr → State → Result) (h : s.fault ≠ none) : s.cycle run = .next s := by
  unfold State.cycle
  split
  · rfl
  · contradiction

theorem State.cycle_noFetch (s : State) (run : Instr → State → Result) (h : s.fault = none) (ho : s.fetchOpcode = none) :
    s.cycle run = .next (s.setFault (some ⟨.fetchOutOfBounds, none, some s.pc, none⟩)) := by
  simp [State.cycle, h, ho]

theorem State.cycle_invalid (s : State) (run : Instr → State → Result) (w : Word) (e : DecodeError) (h : s.fault = none)
    (ho : s.fetchOpcode = some w) (he : decodeWord w = .error e) :
    s.cycle run = .next (s.setFault (some ⟨.invalidOpcode, some w, some s.pc, none⟩)) := by
  simp [State.cycle, h, ho, he]

theorem State.cycle_runs (s : State) (run : Instr → State → Result) (w : Word) (i : Instr) (h : s.fault = none)
    (ho : s.fetchOpcode = some w) (hi : decodeWord w = .ok i) : s.cycle run = run i s := by
  simp [State.cycle, h, ho, hi]

/-- Everything a step that answers a next state can have done. -/
theorem step_cases {s t : State} (h : step s = .next t) :
    (s.fault ≠ none ∧ t = s) ∨
    (s.fault = none ∧ s.fetchOpcode = none ∧ t = s.setFault (some ⟨.fetchOutOfBounds, none, some s.pc, none⟩)) ∨
    (∃ w e, s.fault = none ∧ s.fetchOpcode = some w ∧ decodeWord w = .error e ∧
      t = s.setFault (some ⟨.invalidOpcode, some w, some s.pc, none⟩)) ∨
    (∃ w i, s.fault = none ∧ s.fetchOpcode = some w ∧ decodeWord w = .ok i ∧ exec i s = .next t) :=
  State.cycle_cases h

theorem step_halted (s : State) (h : s.fault ≠ none) : step s = .next s := s.cycle_halted exec h

theorem step_noFetch (s : State) (h : s.fault = none) (ho : s.fetchOpcode = none) :
    step s = .next (s.setFault (some ⟨.fetchOutOfBounds, none, some s.pc, none⟩)) := s.cycle_noFetch exec h ho

theorem step_invalid (s : State) (w : Word) (e : DecodeError) (h : s.fault = none) (ho : s.fetchOpcode = some w)
    (he : decodeWord w = .error e) : step s = .next (s.setFault (some ⟨.invalidOpcode, some w, some s.pc, none⟩)) :=
  s.cycle_invalid exec w e h ho he

theorem step_runs (s : State) (w : Word) (i : Instr) (h : s.fault = none) (ho : s.fetchOpcode = some w)
    (hi : decodeWord w = .ok i) : step s = exec i s := s.cycle_runs exec w i h ho hi

/-! ### The block with the draws as inputs (10_state.md R20, R38) -/

@[simp] theorem Block.withDraws_toBlock (b : Block) (n : Nat) : (b.withDraws n).toBlock = b := rfl
@[simp] theorem Block.withDraws_draws (b : Block) (n : Nat) : (b.withDraws n).draws = n := rfl
@[simp] theorem State.toBlock_withDraws (s : State) (n : Nat) : s.toBlock.withDraws n = s.setDraws n := rfl
@[simp] theorem blockOf_next (s : State) : blockOf (.next s) = .next s.toBlock := rfl
@[simp] theorem blockOf_fault (r : Fault) : blockOf (.fault r) = .fault r := rfl
@[simp] theorem blockOf_refused (r : Refusal) : blockOf (.refused r) = .refused r := rfl

/-- The host's `exec` is the meaning for the free draws at the count. -/
theorem exec_eq_execWith (i : Instr) (s : State) : exec i s = execWith (Config.rnd s.draws) (Config.pick s.draws) i s := by
  cases i <;> rfl

/-- An instruction that uses no draw has one meaning for all draws. -/
theorem execWith_eq_exec (rnd : Byte) (pick : Nat) (i : Instr) (s : State) (h1 : ∀ x kk, i ≠ .rnd x kk)
    (h2 : ∀ x, i ≠ .ldVxK x) : execWith rnd pick i s = exec i s := by
  cases i <;> first | rfl | exact absurd rfl (h1 _ _) | exact absurd rfl (h2 _)

/-! ### The held keys (43_keyboard.md R202, R205) -/

theorem KeySet.mem_held (ks : KeySet) (k : Key) : k ∈ KeySet.held ks ↔ KeySet.holds ks k = true := by
  simp [KeySet.held]

theorem KeySet.held_nil (ks : KeySet) : KeySet.held ks = [] ↔ ∀ k, KeySet.holds ks k = false := by
  simp [KeySet.held, List.filter_eq_nil_iff]

theorem KeySet.isPressed_iff (ks : KeySet) (b : Byte) :
    KeySet.isPressed ks b = true ↔ ∃ k : Key, KeySet.holds ks k = true ∧ b.toNat = k.val := by
  unfold KeySet.isPressed KeySet.holds
  split
  · rename_i h
    constructor
    · intro e; exact ⟨⟨b.toNat, h⟩, e, rfl⟩
    · rintro ⟨k, e, hb⟩; simpa [hb] using e
  · rename_i h
    simp only [Bool.false_eq_true, false_iff, not_exists, not_and]
    intro k _ hb
    exact h (hb ▸ k.isLt)

theorem pickKey_mem (d : Nat) (k : Key) (rest : List Key) : pickKey d k rest ∈ k :: rest := by
  have h : d % (rest.length + 1) < (k :: rest).length := Nat.mod_lt _ (Nat.succ_pos _)
  simp only [pickKey, List.getD_eq_getElem?_getD, List.getElem?_eq_getElem h, Option.getD_some]
  exact List.getElem_mem h

theorem pickKey_surjective (k : Key) (rest : List Key) (j : Key) (h : j ∈ k :: rest) : ∃ d, pickKey d k rest = j := by
  obtain ⟨n, hn, e⟩ := List.getElem_of_mem h
  refine ⟨n, ?_⟩
  have hm : n % (rest.length + 1) = n := Nat.mod_eq_of_lt hn
  simp only [pickKey, hm, List.getD_eq_getElem?_getD, List.getElem?_eq_getElem hn, Option.getD_some, e]

@[simp] theorem keyByte_toNat (k : Key) : (keyByte k).toNat = k.val := by
  have := k.isLt
  simp only [keyByte, BitVec.toNat_ofNat]
  omega

theorem KeySet.holds_ofKeys (ks : List Key) (k : Key) : KeySet.holds (KeySet.ofKeys ks) k = true ↔ k ∈ ks := by
  induction ks with
  | nil => simp [KeySet.ofKeys, KeySet.holds]
  | cons j ks ih =>
    simp only [KeySet.ofKeys, KeySet.holds, Vector.getElem_set, List.mem_cons]
    by_cases e : j.val = k.val
    · simp [e, Fin.ext e.symm]
    · have : k ≠ j := fun h => e (by rw [h])
      simpa [e, this, KeySet.holds] using ih

/-! ### The timers (60_exceptions.md R261) -/

theorem countDown_toNat (t : Byte) : (countDown t).toNat = t.toNat - 1 := by
  unfold countDown
  split
  · rename_i h; simp [h]
  · rename_i h
    have h0 : t.toNat ≠ 0 := fun e => h (BitVec.eq_of_toNat_eq (by simpa using e))
    have := t.isLt
    have h1 : (1 : Byte).toNat = 1 := rfl
    simp only [BitVec.toNat_sub, h1]
    omega

/-! ### Reset (70_reset_and_hazards.md R290) -/

/-- `Reset` under the default font is the model's reset state, the record of draws apart. -/
theorem resetOp_eq (s : State) : resetOp s = State.reset.setDraws s.draws := by
  simp only [resetOp, resetUnder, Memory.loadFont_default]
  rfl

/-- Two states with the same block differ in the record of draws only. -/
theorem State.eq_setDraws {s u : State} (h : s.toBlock = u.toBlock) : u = s.setDraws u.draws := by
  cases s
  cases u
  cases h
  rfl

end Sys2Proof.Machine
end

