-- ==== Sys2Proof/Laws/PerInstr.lean ====
section
/-! SUPPORT. Statements made once per instruction. MatchesRow: a well-formed instruction's word matches the mask and
pattern of its own row of the opcode map (30_encoding.md R101, R110). -/

namespace Sys2Proof.Laws.MatchesRow

def Statement (i : Instr) : Prop :=
  i.wellFormed = true → ∃ r ∈ opcodeRows, r.mnemonic = i.mnemonic ∧ r.admits (encode i) = true

/-- A word of format NNN matches a row that fixes its major nibble only. -/
theorem nnn_matches (op : Nibble) (nnn : Addr12) : wordNNN op nnn &&& 0xF000#16 = wordNNN op 0#12 := by
  apply BitVec.eq_of_getLsbD_eq
  intro i hi
  simp only [wordNNN, BitVec.getLsbD_and, BitVec.getLsbD_append]
  interval_cases i <;> simp

/-- A word of format XKK matches a row that fixes its major nibble only. -/
theorem xkk_matches (op : Nibble) (x : Reg) (kk : Byte) : wordXKK op x kk &&& 0xF000#16 = wordNNN op 0#12 := by
  apply BitVec.eq_of_getLsbD_eq
  intro i hi
  simp only [wordNNN, wordXKK, BitVec.getLsbD_and, BitVec.getLsbD_append]
  interval_cases i <;> simp

/-- A word of format X matches a row that fixes its major nibble and its low byte. -/
theorem x_matches (op : Nibble) (x : Reg) (kk : Byte) : wordXKK op x kk &&& 0xF0FF#16 = wordXKK op 0 kk := by
  apply BitVec.eq_of_getLsbD_eq
  intro i hi
  simp only [wordXKK, BitVec.getLsbD_and, BitVec.getLsbD_append]
  interval_cases i <;> simp [regNibble]

/-- A word of format XYN matches a row that fixes its major nibble only. -/
theorem xyn_matches (op : Nibble) (x y : Reg) (n : Nibble) : wordXYN op x y n &&& 0xF000#16 = wordNNN op 0#12 := by
  apply BitVec.eq_of_getLsbD_eq
  intro i hi
  simp only [wordNNN, wordXYN, BitVec.getLsbD_and, BitVec.getLsbD_append]
  interval_cases i <;> simp

/-- A word of format XY matches a row that fixes its major and minor nibbles. -/
theorem xy_matches (op : Nibble) (x y : Reg) (n : Nibble) : wordXYN op x y n &&& 0xF00F#16 = wordXYN op 0 0 n := by
  apply BitVec.eq_of_getLsbD_eq
  intro i hi
  simp only [wordXYN, BitVec.getLsbD_and, BitVec.getLsbD_append]
  interval_cases i <;> simp [regNibble]

/-- What a constructor's lemma needs: its row stands in the map, and its masked word is the row's pattern. -/
theorem of_row (i : Instr) (r : OpcodeRow) (hrow : r ∈ opcodeRows) (hname : r.mnemonic = i.mnemonic)
    (hword : encode i &&& r.mask = r.pat) : Statement i :=
  fun _ => ⟨r, hrow, hname, by simp [OpcodeRow.admits, hword]⟩

theorem cls : Statement .cls :=
  of_row _ ⟨"CLS", 0xFFFF#16, 0x00E0#16⟩ (by decide) rfl (rfl)
theorem ret : Statement .ret :=
  of_row _ ⟨"RET", 0xFFFF#16, 0x00EE#16⟩ (by decide) rfl (rfl)
theorem sys (nnn : Addr12) : Statement (.sys nnn) :=
  of_row _ ⟨"SYS_addr", 0xF000#16, 0x0000#16⟩ (by decide) rfl (nnn_matches _ _)
theorem jp (nnn : Addr12) : Statement (.jp nnn) :=
  of_row _ ⟨"JP_addr", 0xF000#16, 0x1000#16⟩ (by decide) rfl (nnn_matches _ _)
theorem call (nnn : Addr12) : Statement (.call nnn) :=
  of_row _ ⟨"CALL_addr", 0xF000#16, 0x2000#16⟩ (by decide) rfl (nnn_matches _ _)
theorem seImm (x : Reg) (kk : Byte) : Statement (.seImm x kk) :=
  of_row _ ⟨"SE_Vx_kk", 0xF000#16, 0x3000#16⟩ (by decide) rfl (xkk_matches _ _ _)
theorem sneImm (x : Reg) (kk : Byte) : Statement (.sneImm x kk) :=
  of_row _ ⟨"SNE_Vx_kk", 0xF000#16, 0x4000#16⟩ (by decide) rfl (xkk_matches _ _ _)
theorem seReg (x y : Reg) : Statement (.seReg x y) :=
  of_row _ ⟨"SE_Vx_Vy", 0xF00F#16, 0x5000#16⟩ (by decide) rfl (xy_matches _ _ _ _)
theorem ldImm (x : Reg) (kk : Byte) : Statement (.ldImm x kk) :=
  of_row _ ⟨"LD_Vx_kk", 0xF000#16, 0x6000#16⟩ (by decide) rfl (xkk_matches _ _ _)
theorem addImm (x : Reg) (kk : Byte) : Statement (.addImm x kk) :=
  of_row _ ⟨"ADD_Vx_kk", 0xF000#16, 0x7000#16⟩ (by decide) rfl (xkk_matches _ _ _)
theorem ldReg (x y : Reg) : Statement (.ldReg x y) :=
  of_row _ ⟨"LD_Vx_Vy", 0xF00F#16, 0x8000#16⟩ (by decide) rfl (xy_matches _ _ _ _)
theorem orReg (x y : Reg) : Statement (.orReg x y) :=
  of_row _ ⟨"OR_Vx_Vy", 0xF00F#16, 0x8001#16⟩ (by decide) rfl (xy_matches _ _ _ _)
theorem andReg (x y : Reg) : Statement (.andReg x y) :=
  of_row _ ⟨"AND_Vx_Vy", 0xF00F#16, 0x8002#16⟩ (by decide) rfl (xy_matches _ _ _ _)
theorem xorReg (x y : Reg) : Statement (.xorReg x y) :=
  of_row _ ⟨"XOR_Vx_Vy", 0xF00F#16, 0x8003#16⟩ (by decide) rfl (xy_matches _ _ _ _)
theorem addReg (x y : Reg) : Statement (.addReg x y) :=
  of_row _ ⟨"ADD_Vx_Vy", 0xF00F#16, 0x8004#16⟩ (by decide) rfl (xy_matches _ _ _ _)
theorem subReg (x y : Reg) : Statement (.subReg x y) :=
  of_row _ ⟨"SUB_Vx_Vy", 0xF00F#16, 0x8005#16⟩ (by decide) rfl (xy_matches _ _ _ _)
theorem shr (x y : Reg) : Statement (.shr x y) :=
  of_row _ ⟨"SHR_Vx", 0xF00F#16, 0x8006#16⟩ (by decide) rfl (xy_matches _ _ _ _)
theorem subnReg (x y : Reg) : Statement (.subnReg x y) :=
  of_row _ ⟨"SUBN_Vx_Vy", 0xF00F#16, 0x8007#16⟩ (by decide) rfl (xy_matches _ _ _ _)
theorem shl (x y : Reg) : Statement (.shl x y) :=
  of_row _ ⟨"SHL_Vx", 0xF00F#16, 0x800E#16⟩ (by decide) rfl (xy_matches _ _ _ _)
theorem sneReg (x y : Reg) : Statement (.sneReg x y) :=
  of_row _ ⟨"SNE_Vx_Vy", 0xF00F#16, 0x9000#16⟩ (by decide) rfl (xy_matches _ _ _ _)
theorem ldI (nnn : Addr12) : Statement (.ldI nnn) :=
  of_row _ ⟨"LD_I_addr", 0xF000#16, 0xA000#16⟩ (by decide) rfl (nnn_matches _ _)
theorem jpV0 (nnn : Addr12) : Statement (.jpV0 nnn) :=
  of_row _ ⟨"JP_V0_addr", 0xF000#16, 0xB000#16⟩ (by decide) rfl (nnn_matches _ _)
theorem rnd (x : Reg) (kk : Byte) : Statement (.rnd x kk) :=
  of_row _ ⟨"RND_Vx_kk", 0xF000#16, 0xC000#16⟩ (by decide) rfl (xkk_matches _ _ _)
theorem drw (x y : Reg) (n : Nibble) : Statement (.drw x y n) :=
  of_row _ ⟨"DRW_Vx_Vy_n", 0xF000#16, 0xD000#16⟩ (by decide) rfl (xyn_matches _ _ _ _)
theorem skp (x : Reg) : Statement (.skp x) :=
  of_row _ ⟨"SKP_Vx", 0xF0FF#16, 0xE09E#16⟩ (by decide) rfl (x_matches _ _ _)
theorem sknp (x : Reg) : Statement (.sknp x) :=
  of_row _ ⟨"SKNP_Vx", 0xF0FF#16, 0xE0A1#16⟩ (by decide) rfl (x_matches _ _ _)
theorem ldVxDt (x : Reg) : Statement (.ldVxDt x) :=
  of_row _ ⟨"LD_Vx_DT", 0xF0FF#16, 0xF007#16⟩ (by decide) rfl (x_matches _ _ _)
theorem ldVxK (x : Reg) : Statement (.ldVxK x) :=
  of_row _ ⟨"LD_Vx_K", 0xF0FF#16, 0xF00A#16⟩ (by decide) rfl (x_matches _ _ _)
theorem ldDtVx (x : Reg) : Statement (.ldDtVx x) :=
  of_row _ ⟨"LD_DT_Vx", 0xF0FF#16, 0xF015#16⟩ (by decide) rfl (x_matches _ _ _)
theorem ldStVx (x : Reg) : Statement (.ldStVx x) :=
  of_row _ ⟨"LD_ST_Vx", 0xF0FF#16, 0xF018#16⟩ (by decide) rfl (x_matches _ _ _)
theorem addI (x : Reg) : Statement (.addI x) :=
  of_row _ ⟨"ADD_I_Vx", 0xF0FF#16, 0xF01E#16⟩ (by decide) rfl (x_matches _ _ _)
theorem ldF (x : Reg) : Statement (.ldF x) :=
  of_row _ ⟨"LD_F_Vx", 0xF0FF#16, 0xF029#16⟩ (by decide) rfl (x_matches _ _ _)
theorem ldB (x : Reg) : Statement (.ldB x) :=
  of_row _ ⟨"LD_B_Vx", 0xF0FF#16, 0xF033#16⟩ (by decide) rfl (x_matches _ _ _)
theorem storeRegs (x : Reg) : Statement (.storeRegs x) :=
  of_row _ ⟨"LD__I__Vx", 0xF0FF#16, 0xF055#16⟩ (by decide) rfl (x_matches _ _ _)
theorem loadRegs (x : Reg) : Statement (.loadRegs x) :=
  of_row _ ⟨"LD_Vx__I", 0xF0FF#16, 0xF065#16⟩ (by decide) rfl (x_matches _ _ _)

end Sys2Proof.Laws.MatchesRow
end

