-- ==== Sys2Proof/Tests/Slice0.lean ====
section
/-! SUPPORT. Tests and witnesses. The expected result of every test is a row of 95_test_vectors.md, named in the comment
above it ("Part 2, ALU" and so on), or is worked out by hand from the rule named. A witness shows, for an obligation with
hypotheses, concrete values that meet them together. -/

namespace Sys2Proof.Tests
open Sys2Proof Sys2Proof.Machine

/-! ### Helpers -/

/-- One step of `s` with the word `w` placed where it fetches. -/
def run (w : Nat) (s : State) : Result := step (s.withFetchWord 16 w)

/-- What `f` reads from a next state. -/
def seen {α : Type} (f : State → α) : Result → Option α
  | .next s => some (f s)
  | .fault _ => none
  | .refused _ => none

/-- The reset state with registers written, in order. -/
def regs : List (Reg × Byte) → State
  | [] => State.reset
  | (x, v) :: rest => (regs rest).writeV x v

/-- `s` with the bytes from `a` up. -/
def withBytes (s : State) (a : Nat) (bs : List Byte) : State := s.setMem (s.mem.writeBytes a bs)

/-- The pixels that are on, as (column, row), of the given rows. -/
def lit (s : State) (rows : List (Fin 32)) : List (Nat × Nat) :=
  rows.flatMap fun r => ((List.finRange 64).filter fun c => Framebuffer.pixel s.fb r c).map fun c => (c.val, r.val)

/-- A recorded fault by kind, opcode, address and extra. -/
def faulted (k : FaultKind) (w : Word) (a : Word) (e : Option Nat) : Option (Option FaultRecord) :=
  some (some ⟨k, some w, some a, e⟩)

/-! ### Well-formedness: the two ill-formed terms are refused -/

theorem test_wellFormed_refuses_sys_cls : (Instr.sys 0x0E0#12).wellFormed = false := by decide
theorem test_wellFormed_refuses_sys_ret : (Instr.sys 0x0EE#12).wellFormed = false := by decide
theorem test_wellFormed_accepts_neighbours :
    (Instr.sys 0x0DF#12).wellFormed ∧ (Instr.sys 0x0E1#12).wellFormed ∧ (Instr.sys 0x0EF#12).wellFormed := by decide

/-! ### Decoding: every constructor, its word written out in bits from the formats of 30_encoding.md R92 and R110 -/

-- op nnn
theorem test_decode_flow :
    decodeWord 0b0000_0000_1110_0000#16 = .ok .cls ∧ decodeWord 0b0000_0000_1110_1110#16 = .ok .ret ∧
    decodeWord 0b0000_0001_0010_0011#16 = .ok (.sys 0x123#12) ∧ decodeWord 0b0001_1010_1011_1100#16 = .ok (.jp 0xABC#12) ∧
    decodeWord 0b0010_0010_0000_1110#16 = .ok (.call 0x20E#12) ∧
    decodeWord 0b1011_1111_1111_1110#16 = .ok (.jpV0 0xFFE#12) := by decide

-- op x kk, and op x y 0
theorem test_decode_skips :
    decodeWord 0b0011_1010_0000_0101#16 = .ok (.seImm 10 0x05#8) ∧
    decodeWord 0b0100_1010_0000_0101#16 = .ok (.sneImm 10 0x05#8) ∧
    decodeWord 0b0101_1010_1011_0000#16 = .ok (.seReg 10 11) ∧ decodeWord 0b1001_1010_1011_0000#16 = .ok (.sneReg 10 11) := by
  decide

-- op x kk, and op x y n with n the minor opcode
theorem test_decode_alu :
    decodeWord 0b0110_1010_0000_0010#16 = .ok (.ldImm 10 0x02#8) ∧
    decodeWord 0b0111_0001_1111_1111#16 = .ok (.addImm 1 0xFF#8) ∧
    decodeWord 0b1000_0001_0010_0000#16 = .ok (.ldReg 1 2) ∧ decodeWord 0b1000_0001_0010_0001#16 = .ok (.orReg 1 2) ∧
    decodeWord 0b1000_0001_0010_0010#16 = .ok (.andReg 1 2) ∧ decodeWord 0b1000_0001_0010_0011#16 = .ok (.xorReg 1 2) ∧
    decodeWord 0b1000_0001_0010_0100#16 = .ok (.addReg 1 2) ∧ decodeWord 0b1000_0001_0010_0101#16 = .ok (.subReg 1 2) ∧
    decodeWord 0b1000_0001_0010_0110#16 = .ok (.shr 1 2) ∧ decodeWord 0b1000_0001_0010_0111#16 = .ok (.subnReg 1 2) ∧
    decodeWord 0b1000_0001_0010_1110#16 = .ok (.shl 1 2) ∧
    decodeWord 0b1100_0001_0000_1111#16 = .ok (.rnd 1 0x0F#8) := by decide

-- op x y n, and op x with kk the minor opcode
theorem test_decode_display_keyboard :
    decodeWord 0b1101_0000_0001_0101#16 = .ok (.drw 0 1 5#4) ∧
    decodeWord 0b1110_0010_1001_1110#16 = .ok (.skp 2) ∧ decodeWord 0b1110_0010_1010_0001#16 = .ok (.sknp 2) ∧
    decodeWord 0b1111_0101_0000_1010#16 = .ok (.ldVxK 5) := by decide

theorem test_decode_timer_index_memory :
    decodeWord 0b1111_0001_0000_0111#16 = .ok (.ldVxDt 1) ∧ decodeWord 0b1111_0000_0001_0101#16 = .ok (.ldDtVx 0) ∧
    decodeWord 0b1111_0000_0001_1000#16 = .ok (.ldStVx 0) ∧ decodeWord 0b1010_0011_0000_0000#16 = .ok (.ldI 0x300#12) ∧
    decodeWord 0b1111_0001_0001_1110#16 = .ok (.addI 1) ∧ decodeWord 0b1111_0010_0010_1001#16 = .ok (.ldF 2) ∧
    decodeWord 0b1111_0001_0011_0011#16 = .ok (.ldB 1) ∧ decodeWord 0b1111_0010_0101_0101#16 = .ok (.storeRegs 2) ∧
    decodeWord 0b1111_0010_0110_0101#16 = .ok (.loadRegs 2) := by decide

-- Part 2: 5AB1, 8128, 812F, 9AB1, E29F, F1FF are invalid
theorem test_decode_invalid :
    [0x5AB1#16, 0x8128#16, 0x812F#16, 0x9AB1#16, 0xE29F#16, 0xE200#16, 0xF1FF#16].all (fun w =>
      decide (decodeWord w = .error (.invalidOpcode w))) = true := by decide

theorem test_decode_truncated : decodeBytes [] = .error .truncated ∧ decodeBytes [0x60#8] = .error .truncated := by decide

/-- The first byte, at the lower address, is bits 15 to 8 of the word (20_memory.md R62). -/
theorem test_decodeTableWord : decodeTableWord 16 0xD125 = some (.drw 1 2 5#4) ∧ decodeTableWord 16 0x5AB1 = none := by decide

theorem test_withFetchWord_bytes :
    (State.reset.withFetchWord 16 0x6A02).mem = [(0x200, 0x6A#8), (0x201, 0x02#8)] := by decide

/-! ### Control flow (Part 2, Control flow) -/

-- 1ABC; 1FFF, whose next step faults
theorem test_jp : seen (·.pc) (run 0x1ABC State.reset) = some 0xABC#16 := by decide
theorem test_fetch_out_of_bounds :
    seen (·.fault) (step (State.reset.setPc 0xFFF#16)) = some (some ⟨.fetchOutOfBounds, none, some 0xFFF#16, none⟩) := by decide

-- 2ABC with sp = 15; with sp = 16
theorem test_call : seen (fun s => (s.stack[15], s.sp, s.pc)) (run 0x2ABC (State.reset.setSp 15)) =
    some (0x202#16, 16#8, 0xABC#16) := by decide
theorem test_call_overflow : seen (·.fault) (run 0x2ABC (State.reset.setSp 16)) =
    faulted .stackOverflow 0x2ABC#16 0x200#16 none := by decide

-- 00EE with sp = 16 and stack[15] = 0321; with sp = 0
theorem test_ret : seen (fun s => (s.sp, s.pc)) (run 0x00EE ((State.reset.setSp 16).setStack
    (State.reset.stack.set 15 0x321#16))) = some (15#8, 0x321#16) := by decide
theorem test_ret_underflow : seen (·.fault) (run 0x00EE State.reset) =
    faulted .stackUnderflow 0x00EE#16 0x200#16 none := by decide

-- 3A05, 4A05 with VA = 05 and 06
theorem test_se_imm : seen (·.pc) (run 0x3A05 (regs [(10, 5)])) = some 0x204#16 ∧
    seen (·.pc) (run 0x3A05 (regs [(10, 6)])) = some 0x202#16 := by decide
theorem test_sne_imm : seen (·.pc) (run 0x4A05 (regs [(10, 5)])) = some 0x202#16 ∧
    seen (·.pc) (run 0x4A05 (regs [(10, 6)])) = some 0x204#16 := by decide

-- 5AB0, 9AB0 with VA = 07 and VB = 07, 08
theorem test_se_reg : seen (·.pc) (run 0x5AB0 (regs [(10, 7), (11, 7)])) = some 0x204#16 ∧
    seen (·.pc) (run 0x5AB0 (regs [(10, 7), (11, 8)])) = some 0x202#16 := by decide
theorem test_sne_reg : seen (·.pc) (run 0x9AB0 (regs [(10, 7), (11, 7)])) = some 0x202#16 ∧
    seen (·.pc) (run 0x9AB0 (regs [(10, 7), (11, 8)])) = some 0x204#16 := by decide

-- BFFF with V0 = FF: the sum is not reduced to 12 bits
theorem test_jp_v0 : seen (·.pc) (run 0xBFFF (regs [(0, 0xFF)])) = some 0x10FE#16 := by decide

-- 00E1 is SYS 0x0E1
theorem test_sys : seen (·.fault) (run 0x00E1 State.reset) = faulted .invalidOpcode 0x00E1#16 0x200#16 none := by decide

-- the edge of memory: a skip at FFC, and an odd pc
theorem test_skip_at_the_edge :
    seen (·.pc) (run 0x3000 (State.reset.setPc 0xFFC#16)) = some 0x1000#16 := by decide
theorem test_odd_pc : seen (fun s => (s.readV 10, s.pc)) (run 0x6A02 (State.reset.setPc 0x201#16)) =
    some (2#8, 0x203#16) := by decide

/-! ### Register instructions (Part 2, ALU) -/

-- 6FFF; 71FF with V1 = 02
theorem test_ld_imm : seen (fun s => (s.readV 15, s.pc)) (run 0x6FFF State.reset) = some (0xFF#8, 0x202#16) := by decide
theorem test_add_imm : seen (fun s => (s.readV 1, s.readV 15)) (run 0x71FF (regs [(1, 2)])) = some (1#8, 0#8) := by decide

-- 8120, 8121, 8122, 8123
theorem test_ld_reg : seen (fun s => (s.readV 1, s.readV 15)) (run 0x8120 (regs [(1, 1), (2, 0x3C), (15, 1)])) =
    some (0x3C#8, 1#8) := by decide
theorem test_or : seen (fun s => (s.readV 1, s.readV 15)) (run 0x8121 (regs [(1, 0xF0), (2, 0x0F), (15, 1)])) =
    some (0xFF#8, 1#8) := by decide
theorem test_and : seen (fun s => (s.readV 1, s.readV 15)) (run 0x8122 (regs [(1, 0xF3), (2, 0x3F), (15, 1)])) =
    some (0x33#8, 1#8) := by decide
theorem test_xor : seen (fun s => (s.readV 1, s.readV 15)) (run 0x8123 (regs [(1, 0xFF), (2, 0x0F), (15, 1)])) =
    some (0xF0#8, 1#8) := by decide

-- 8124 with FF + 01; 8F24 with VF = 10: the flag wins
theorem test_add : seen (fun s => (s.readV 1, s.readV 15)) (run 0x8124 (regs [(1, 0xFF), (2, 1)])) = some (0#8, 1#8) := by decide
theorem test_add_into_vf : seen (fun s => s.readV 15) (run 0x8F24 (regs [(15, 0x10), (2, 2)])) = some 0#8 := by decide

-- 8125 with 03 - 05; 81F5 with V1 = 00, VF = 01
theorem test_sub : seen (fun s => (s.readV 1, s.readV 15)) (run 0x8125 (regs [(1, 3), (2, 5)])) = some (0xFE#8, 0#8) := by decide
theorem test_sub_of_vf : seen (fun s => (s.readV 1, s.readV 15)) (run 0x81F5 (regs [(1, 0), (15, 1)])) =
    some (0xFF#8, 0#8) := by decide

-- 8126 with V1 = 05, V2 = AA; 8F06 with VF = 03
theorem test_shr : seen (fun s => (s.readV 1, s.readV 2, s.readV 15)) (run 0x8126 (regs [(1, 5), (2, 0xAA)])) =
    some (2#8, 0xAA#8, 1#8) := by decide
theorem test_shr_vf : seen (fun s => s.readV 15) (run 0x8F06 (regs [(15, 3)])) = some 1#8 := by decide

-- 8127 with V1 = 05, V2 = 03; 8F27 with VF = 03, V2 = 05
theorem test_subn : seen (fun s => (s.readV 1, s.readV 15)) (run 0x8127 (regs [(1, 5), (2, 3)])) = some (0xFE#8, 0#8) := by decide
theorem test_subn_into_vf : seen (fun s => s.readV 15) (run 0x8F27 (regs [(15, 3), (2, 5)])) = some 1#8 := by decide

-- 812E with V1 = 81, V2 = 55; V1 = 40, VF = 01
theorem test_shl : seen (fun s => (s.readV 1, s.readV 2, s.readV 15)) (run 0x812E (regs [(1, 0x81), (2, 0x55)])) =
    some (2#8, 0x55#8, 1#8) := by decide
theorem test_shl_clears_vf : seen (fun s => (s.readV 1, s.readV 15)) (run 0x812E (regs [(1, 0x40), (15, 1)])) =
    some (0x80#8, 0#8) := by decide

-- C10F with the draw A7; C100 with any draw
theorem test_rnd : seen (fun s => (s.readV 1, s.pc)) (rndInto 0xA7#8 1 0x0F#8 State.reset) = some (7#8, 0x202#16) := by decide
theorem test_rnd_no_bits : seen (fun s => s.readV 1) (run 0xC100 (regs [(1, 9)])) = some 0#8 :=
  congrArg some (BitVec.and_zero (x := Config.rnd 0))

/-! ### Display (Part 2, Display) -/

-- 00E0 with pixels on, redraw = 0, VF = 01
theorem test_cls : seen (fun s => (lit s [1, 31], s.redraw, s.readV 15)) (run 0x00E0
      ((((regs [(15, 1)]).setFb (Framebuffer.toggle (Framebuffer.toggle Framebuffer.blank 1 1) 31 63))).setRedraw false)) =
    some ([], true, 1#8) := by decide +kernel

-- D011, mem[300] = C0, pixel (0,0) on
theorem test_drw_collision : seen (fun s => (lit s [0], s.readV 15, s.redraw)) (run 0xD011
      (((withBytes State.reset 0x300 [0xC0]).setI 0x300).setFb (Framebuffer.toggle Framebuffer.blank 0 0))) =
    some ([(1, 0)], 1#8, true) := by decide +kernel

-- D012, mem[300..301] = 81 FF, V0 = 3C, V1 = 1F: wraps at both edges
theorem test_drw_wraps : seen (fun s => lit s [31, 0, 1]) (run 0xD012
      ((withBytes (regs [(0, 0x3C), (1, 0x1F)]) 0x300 [0x81, 0xFF]).setI 0x300)) =
    some [(3, 31), (60, 31), (0, 0), (1, 0), (2, 0), (3, 0), (60, 0), (61, 0), (62, 0), (63, 0)] := by decide +kernel

-- Part 1, S2: glyph "0" at (0,0), then VF = 0
theorem test_drw_font : seen (fun s => (lit s [0, 1, 4, 5], s.readV 15)) (run 0xD015 State.reset) =
    some ([(0, 0), (1, 0), (2, 0), (3, 0), (0, 1), (3, 1), (0, 4), (1, 4), (2, 4), (3, 4)], 0#8) := by decide +kernel

-- D012 with I = FFF; D010 with I = FFFF does not fault
theorem test_drw_bound : seen (·.fault) (run 0xD012 (State.reset.setI 0xFFF)) =
    faulted .memOutOfBounds 0xD012#16 0x200#16 (some 0x1000) := by decide +kernel
theorem test_drw_no_rows : seen (fun s => (s.fault, s.redraw)) (run 0xD010 ((State.reset.setI 0xFFFF).setRedraw false)) =
    some (none, true) := by decide +kernel

/-! ### Keyboard (Part 2, Keyboard) -/

/-- The reset state with the given keys held. -/
def held (ks : List Key) (s : State) : State := s.setKeys (KeySet.ofKeys ks)

-- E29E with keys = {3}, V2 = 03; with keys = {0,3}, V2 = 13 (not reduced)
theorem test_skp : seen (·.pc) (run 0xE29E (held [3] (regs [(2, 3)]))) = some 0x204#16 ∧
    seen (·.pc) (run 0xE29E (held [0, 3] (regs [(2, 0x13)]))) = some 0x202#16 := by decide
theorem test_sknp : seen (·.pc) (run 0xE2A1 (held [3] (regs [(2, 3)]))) = some 0x202#16 ∧
    seen (·.pc) (run 0xE2A1 (held [3] (regs [(2, 0x13)]))) = some 0x204#16 := by decide

-- F50A with no key; with keys = {3,9,F}, by the draw
theorem test_ld_k_waits : seen (fun s => (s.readV 5, s.pc)) (run 0xF50A (regs [(5, 0x77)])) =
    some (0x77#8, 0x200#16) := by decide
theorem test_ld_k_picks : [0, 1, 2].map (fun d => seen (fun s => (s.readV 5, s.pc))
      (waitKey d 5 (held [3, 9, 15] State.reset))) =
    [some (3#8, 0x202#16), some (9#8, 0x202#16), some (15#8, 0x202#16)] := by decide

/-! ### Timers, index, memory (Part 2, Timers) -/

-- F107 with DT = 2; F015 with V0 = 03; F018 with V0 = 02
theorem test_ld_vx_dt : seen (fun s => (s.readV 1, s.DT)) (run 0xF107 (State.reset.setDT 2)) = some (2#8, 2#8) := by decide
theorem test_ld_dt_vx : seen (·.DT) (run 0xF015 (regs [(0, 3)])) = some 3#8 := by decide
theorem test_ld_st_vx : seen (·.ST) (run 0xF018 (regs [(0, 2)])) = some 2#8 := by decide

-- AFFF; F11E with I = 0FFF and with I = FFFF
theorem test_ld_i : seen (·.I) (run 0xAFFF State.reset) = some 0x0FFF#16 := by decide
theorem test_add_i : seen (fun s => (s.I, s.readV 15)) (run 0xF11E ((regs [(1, 1), (15, 7)]).setI 0x0FFF)) =
      some (0x1000#16, 7#8) ∧
    seen (·.I) (run 0xF11E ((regs [(1, 0xFF)]).setI 0xFFFF)) = some 0x00FE#16 := by decide

-- F229 with V2 = 0F and FF
theorem test_ld_f : seen (·.I) (run 0xF229 (regs [(2, 0x0F)])) = some 0x004B#16 ∧
    seen (·.I) (run 0xF229 (regs [(2, 0xFF)])) = some 0x04FB#16 := by decide

-- F133 with I = 0FFD, V1 = 7B; with I = 0FFE
theorem test_bcd : seen (fun s => s.mem.readBytes 0xFFD 3) (run 0xF133 ((regs [(1, 0x7B)]).setI 0x0FFD)) =
    some [1#8, 2#8, 3#8] := by decide
theorem test_bcd_bound : seen (·.fault) (run 0xF133 ((regs [(1, 0x7B)]).setI 0x0FFE)) =
    faulted .memOutOfBounds 0xF133#16 0x200#16 (some 0x1000) := by decide

-- F255 with I = 0400, V = AA BB CC DD; F155 with I = 0FFF
theorem test_store_regs : seen (fun s => (s.mem.readBytes 0x400 4, s.I)) (run 0xF255
      ((regs [(0, 0xAA), (1, 0xBB), (2, 0xCC), (3, 0xDD)]).setI 0x400)) =
    some ([0xAA#8, 0xBB#8, 0xCC#8, 0#8], 0x400#16) := by decide
theorem test_store_regs_bound : seen (fun s => (s.fault, s.mem.read 0xFFF)) (run 0xF155 ((regs [(0, 0xAA), (1, 0xBB)]).setI 0xFFF)) =
    some (some ⟨.memOutOfBounds, some 0xF155#16, some 0x200#16, some 0x1000⟩, 0#8) := by decide

-- F265 with mem[300..303] = 00 01 05 07, V3 = 99; FF65 with I = 0 reads the font
theorem test_load_regs : seen (fun s => (s.readV 0, s.readV 1, s.readV 2, s.readV 3)) (run 0xF265
      ((withBytes (regs [(3, 0x99)]) 0x300 [0, 1, 5, 7]).setI 0x300)) = some (0#8, 1#8, 5#8, 0x99#8) := by decide
theorem test_load_regs_font : seen (fun s => s.V.toList) (run 0xFF65 State.reset) =
    some [0xF0, 0x90, 0x90, 0x90, 0xF0, 0x20, 0x60, 0x20, 0x20, 0x70, 0xF0, 0x10, 0xF0, 0x80, 0xF0, 0xF0] := by decide

/-! ### The operations of the environment (Part 2, Timers, Keyboard, Reset and load; Part 1, S3) -/

theorem test_step_after_reset : seen (·.fault) (step State.reset) = faulted .invalidOpcode 0x0000#16 0x200#16 none := by decide
theorem test_tick_sequence : (ticks 3 (State.reset.setST 2)).1 = [true, true, false] ∧
    (ticks 3 (State.reset.setST 2)).2.ST = 0#8 := by decide
theorem test_tick_both : (tick ((State.reset.setDT 255).setST 255)).1.DT = 254#8 ∧ (tick (State.reset.setDT 1)).2 = false := by
  decide

-- by hand from R290 and R8: a FONT of bytes AA fills 000 to 04F and nothing more; the default gives the reset state
theorem test_reset_under_another_font :
    (resetUnder (Vector.replicate 80 0xAA#8) State.reset).mem.readBytes 0x04E 4 = [0xAA#8, 0xAA#8, 0#8, 0#8] ∧
    (resetUnder defaultFont State.reset) = State.reset := by decide

/-- `KeyUpdate({3,9})` with `keys = {1}`, KEYMAP the identity on 0 to 15; then a host key outside its domain. -/
def identityMap (h : HostKey) : Option Key := if lt : h < 16 then some ⟨h, lt⟩ else none
theorem test_key_update : (keyUpdateUnder identityMap [3, 9] (held [1] State.reset)).keys = KeySet.ofKeys [3, 9] ∧
    (keyUpdateUnder identityMap [16] (held [3] State.reset)).keys = KeySet.ofKeys [] := by decide

theorem test_redraw_ack : (redrawAck State.reset).redraw = false := by decide
theorem test_load_largest : (loadProgram (List.replicate 3583 0#8) State.reset).fault = none := by decide +kernel
theorem test_load_error : (loadProgram (List.replicate 3584 0xAB#8) State.reset).fault =
    some ⟨.loadError, none, none, some 3584⟩ := by decide +kernel
theorem test_load_bytes : (loadProgram [0x60#8, 0x05#8] State.reset).mem.readBytes 0x1FF 4 = [0#8, 0x60#8, 0x05#8, 0#8] := by decide

/-! ### The block alone, with draws as inputs (Part 2, ALU and Keyboard) -/

/-- What `f` reads from a next block. -/
def seenBlock {α : Type} (f : Block → α) : BlockResult → Option α
  | .next b => some (f b)
  | .fault _ => none
  | .refused _ => none

-- CFF0 with the draw A7
theorem test_block_rnd : seenBlock (·.V[15]) ((State.reset.withFetchWord 16 0xCFF0).toBlock.step 0xA7#8 0) = some 0xA0#8 := by
  decide
-- F50A with keys = {3,9,F}: the second of them, and with the third draw the third
theorem test_block_ld_k : [1, 2].map (fun pick => seenBlock (·.V[5])
      ((held [3, 9, 15] (State.reset.withFetchWord 16 0xF50A)).toBlock.step 0#8 pick)) = [some 9#8, some 15#8] := by decide

/-! ### Witnesses of hypotheses -/

/-- A halted state. -/
def halted : State := State.reset.setFault (some ⟨.invalidOpcode, some 0x0000#16, some 0x200#16, none⟩)

theorem witness_DecodeOfEncodeIsTheInstruction : (Instr.sys 0xFFF#12).wellFormed = true ∧ (Instr.drw 15 15 15#4).wellFormed = true := by
  decide
theorem witness_EncodeOfDecodeIsTheWord :
    decodeWord 0x0000#16 = .ok (.sys 0#12) ∧ decodeWord 0xFF65#16 = .ok (.loadRegs 15) := by decide
theorem witness_DecodeSelectsTheFirstMatchingRow : ∃ p q r : OpcodeRow, p ∈ opcodeRows ∧ q ∈ opcodeRows ∧ r ∈ opcodeRows ∧
    p ≠ q ∧ p.admits 0x00E0#16 ∧ q.admits 0x00E0#16 ∧ r ≠ q ∧ r.admits 0x00EE#16 ∧ q.admits 0x00EE#16 :=
  ⟨⟨"CLS", 0xFFFF, 0x00E0⟩, ⟨"SYS_addr", 0xF000, 0x0000⟩, ⟨"RET", 0xFFFF, 0x00EE⟩, by decide⟩
theorem witness_StepRunsTheDecodedInstruction :
    let s := (State.reset.setPc 0xFFE#16).withFetchWord 16 0x6A02
    s.fault = none ∧ s.pc.toNat ≤ 0xFFE ∧ decodeBytes (s.mem.readBytes s.pc.toNat 2) = .ok (.ldImm 10 2#8, []) := by decide
theorem witness_StepFetches_halted : halted.fault ≠ none := by decide
theorem witness_StepFetches_bound : (State.reset.setPc 0xFFF#16).fault = none ∧ (State.reset.setPc 0xFFF#16).pc.toNat + 1 > 0xFFF := by
  decide
theorem witness_StepFetches_invalid :
    let s := (State.reset.setPc 0xFFE#16).withFetchWord 16 0x5AB1
    s.fault = none ∧ s.pc.toNat + 1 ≤ 0xFFF ∧
      (0x5AB1#16).toNat = 256 * (s.mem.read s.pc.toNat).toNat + (s.mem.read (s.pc.toNat + 1)).toNat ∧
      decodeWord 0x5AB1#16 = .error (.invalidOpcode 0x5AB1#16) := by decide
theorem witness_StepFetches_runs :
    let s := (State.reset.setPc 0xFFE#16).withFetchWord 16 0x6A02
    s.fault = none ∧ s.pc.toNat + 1 ≤ 0xFFF ∧
      (0x6A02#16).toNat = 256 * (s.mem.read s.pc.toNat).toNat + (s.mem.read (s.pc.toNat + 1)).toNat ∧
      decodeWord 0x6A02#16 = .ok (.ldImm 10 2#8) := by decide
theorem witness_UnmatchedOpcodes : (State.reset.withFetchWord 16 0x5AB1).fetchOpcode = some 0x5AB1#16 ∧
    (State.reset.withFetchWord 16 0x5AB1).fault = none ∧ ∀ r ∈ opcodeRows, r.admits 0x5AB1#16 = false := by decide
theorem witness_UnmatchedOpcodes_sys : (State.reset.withFetchWord 16 0x0FFF).fetchOpcode = some 0x0FFF#16 ∧
    (State.reset.withFetchWord 16 0x0FFF).fault = none ∧ opField 0x0FFF#16 = 0#4 := by decide
theorem witness_HaltedBlockIsFrozenUntilReset : halted.fault ≠ none ∧ Op.tick ≠ .reset := by decide

theorem witness_FaultsArePrecise_step : State.reset.fault = none ∧
    ∃ t, step State.reset = .next t ∧ t.fault = some ⟨.invalidOpcode, some 0#16, some 0x200#16, none⟩ := ⟨rfl, _, rfl, rfl⟩
theorem witness_FaultsArePrecise_fetch : ∃ t, step (State.reset.setPc 0xFFF#16) = .next t ∧
    t.fault = some ⟨.fetchOutOfBounds, none, some 0xFFF#16, none⟩ := ⟨_, rfl, rfl⟩
theorem witness_FaultsArePrecise_load : State.reset.fault = none ∧
    (loadProgram (List.replicate 3584 0xAB#8) State.reset).fault = some ⟨.loadError, none, none, some 3584⟩ :=
  ⟨rfl, test_load_error⟩
theorem witness_EachInstructionRaisesOnlyItsFault : State.reset.fault = none ∧
    ∃ t r, exec (.storeRegs 15) (State.reset.setI 0xFF1#16) = .next t ∧ t.fault = some r := ⟨rfl, _, _, rfl, rfl⟩
theorem witness_EachInstruction_no_extra : ∃ t r, exec .ret State.reset = .next t ∧ t.fault = some r := ⟨_, _, rfl, rfl⟩
theorem witness_DataAccessAboveMemoryFaults :
    let s := State.reset.setI 0xFFF#16
    s.fault = none ∧ dataLength (.drw 0 1 2#4) = some 2 ∧ (2 ≥ 1 ∧ s.I.toNat + 2 - 1 > 0xFFF) ∧
    dataLength (.drw 0 1 1#4) = some 1 ∧ s.I.toNat + 1 - 1 ≤ 0xFFF ∧ dataLength (.drw 0 1 0#4) = some 0 := by decide

theorem witness_Inv : State.reset.Inv := by
  refine ⟨rfl, by decide, by decide, by decide, by decide, fun r h => ?_⟩
  cases h
theorem witness_Inv_block : Block.initial.Inv := witness_Inv
theorem witness_Inv_elsewhere : (((State.reset.setSp 1).setStack (State.reset.stack.set 0 0x1000#16)).setPc 0x10FE#16).Inv := by
  refine ⟨rfl, by decide, by decide, by decide, by decide, fun r h => ?_⟩
  cases h

theorem witness_PcAfterEachInstruction : (State.reset.setPc 0xFFE#16).fault = none ∧ (State.reset.setPc 0xFFE#16).pc.toNat ≤ 0xFFE ∧
    (∃ t, exec (.seImm 0 0#8) (State.reset.setPc 0xFFE#16) = .next t ∧ t.fault = none) ∧
    (∃ t, exec .ret (State.reset.setPc 0xFFE#16) = .next t ∧ t.fault ≠ none) :=
  ⟨rfl, by decide, ⟨_, rfl, rfl⟩, ⟨_, rfl, nofun⟩⟩
theorem witness_FrameOfEveryInstruction : ∃ t, exec (.storeRegs 15) (State.reset.setI 0xFF0#16) = .next t := ⟨_, rfl⟩
theorem witness_UnreadRegistersInfluenceNothing : (15 : Reg) ∉ regsRead (.drw 0 1 5#4) ∧ (3 : Reg) ∉ regsRead (.storeRegs 2) := by
  decide
theorem witness_VFAfterEachInstruction : State.reset.fault = none ∧
    (∃ t, exec (.addReg 15 15) State.reset = .next t ∧ t.fault = none) ∧ (∃ t, exec (.subReg 1 15) State.reset = .next t ∧ t.fault = none) ∧
    (∃ t, exec (.subnReg 15 1) State.reset = .next t ∧ t.fault = none) ∧ (∃ t, exec (.shr 15 0) State.reset = .next t ∧ t.fault = none) ∧
    (∃ t, exec (.shl 15 0) State.reset = .next t ∧ t.fault = none) ∧ (∃ t, exec (.ldF 15) State.reset = .next t ∧ t.fault = none) ∧
    (∃ t, exec (.ldImm 14 1#8) State.reset = .next t ∧ t.fault = none ∧ (14 : Reg) ≠ VF) :=
  ⟨rfl, ⟨_, rfl, rfl⟩, ⟨_, rfl, rfl⟩, ⟨_, rfl, rfl⟩, ⟨_, rfl, rfl⟩, ⟨_, rfl, rfl⟩, ⟨_, rfl, rfl⟩, ⟨_, rfl, rfl, by decide⟩⟩
theorem witness_VFAfter_drw : (∃ t, exec (.drw 0 1 5#4) State.reset = .next t ∧ t.fault = none) ∧
    ∃ t, exec (.drw 0 1 1#4) (State.reset.setFb (Framebuffer.toggle Framebuffer.blank 0 0)) = .next t ∧ t.fault = none ∧
      Framebuffer.pixel (Framebuffer.toggle Framebuffer.blank 0 0) 0 0 = true ∧ Framebuffer.pixel t.fb 0 0 = false :=
  ⟨⟨_, rfl, rfl⟩, _, rfl, rfl, by decide +kernel, by decide +kernel⟩
theorem witness_StackPointerDiscipline : (State.reset.setSp 16).sp.toNat ≤ 16 ∧
    (∃ t, performUnder defaultFont .step (State.reset.setSp 16) = .next t) ∧
    (∃ t, exec (.call 0x300#12) (State.reset.setSp 15) = .next t) ∧ (∃ t, exec (.call 0x300#12) (State.reset.setSp 16) = .next t) ∧
    (∃ t, exec .ret (State.reset.setSp 16) = .next t) ∧ (∃ t, exec .ret State.reset = .next t) ∧
    (Instr.cls ≠ .ret ∧ ∀ nnn, Instr.cls ≠ .call nnn) :=
  ⟨by decide, ⟨_, rfl⟩, ⟨_, rfl⟩, ⟨_, rfl⟩, ⟨_, rfl⟩, ⟨_, rfl⟩, nofun, nofun⟩
theorem witness_StaleStackEntriesAreUnobservable : (State.reset.setSp 15).sp.toNat ≤ 16 ∧
    SameButStale (State.reset.setSp 15) ((State.reset.setSp 15).setStack (State.reset.stack.set 15 0x321#16)) :=
  ⟨by decide, rfl, by decide⟩
theorem witness_OtherInstructionsIgnoreTheDraws : (∀ x kk, Instr.cls ≠ .rnd x kk) ∧ ∀ x, Instr.cls ≠ .ldVxK x := ⟨nofun, nofun⟩

theorem witness_CallPushesTheReturnAddress : State.reset.sp.toNat < 16 ∧ (State.reset.setSp 15).sp.toNat < 16 := by decide
theorem witness_ReturnPopsTheStack : 0 < (State.reset.setSp 1).sp.toNat ∧ (State.reset.setSp 1).sp.toNat ≤ 16 ∧
    0 < (State.reset.setSp 16).sp.toNat ∧ (State.reset.setSp 16).sp.toNat ≤ 16 := by decide
theorem witness_StackFaultsOfCallAndReturn : (State.reset.setSp 16).sp.toNat = 16 ∧ State.reset.sp.toNat = 0 := by decide
theorem witness_ReturnUndoesCall : (State.reset.setSp 15).sp.toNat < 16 ∧
    ∃ t u : State, exec (.call 0x300#12) (State.reset.setSp 15) = .next t ∧ u.sp = t.sp ∧ u.stack = t.stack ∧ u ≠ t :=
  ⟨by decide, _, State.setI _ 1#16, rfl, rfl, rfl, fun h => absurd (congrArg (·.I) h) (by decide)⟩
theorem witness_flag_results : (0 : Reg) ≠ VF ∧ (14 : Reg) ≠ VF := by decide

theorem witness_Blit : (255 ≤ 255) ∧ (List.replicate 15 0xFF#8).length ≤ 15 ∧ ([] : List Byte).length ≤ 15 := by decide
theorem witness_DrwBlitsTheBytesAtI : (State.reset.setI 0xFF1#16).I.toNat + (15#4).toNat - 1 ≤ 0xFFF ∧ (0#4).toNat = 0 := by decide
theorem witness_Drw_collides : Collides (Framebuffer.toggle Framebuffer.blank 31 63) [0x80#8] 255 255 ∧
    ¬ Collides Framebuffer.blank [0x80#8] 255 255 :=
  ⟨⟨31, 63, ⟨0, 0, by decide, by decide, by decide, by decide, by decide⟩, by decide +kernel⟩,
   fun ⟨r, c, _, h⟩ => by rw [Framebuffer.pixel_blank] at h; cases h⟩
theorem witness_KeySkipsTestTheHeldSet :
    (∃ k : Key, KeySet.holds (KeySet.ofKeys [15]) k = true ∧ ((regs [(2, 15)]).readV 2).toNat = k.val) ∧
    ¬ ∃ k : Key, KeySet.holds (KeySet.ofKeys [15]) k = true ∧ ((regs [(2, 16)]).readV 2).toNat = k.val := by decide
theorem witness_KeyWaitLoadsSomeHeldKey : (∀ k, KeySet.holds State.reset.keys k = false) ∧
    KeySet.holds (held [15] State.reset).keys 15 = true := by decide
theorem witness_WaitingStepIsTheIdentity : (State.reset.withFetchWord 16 0xFF0A).fetchOpcode = some 0xFF0A#16 ∧
    0xFF0A#16 &&& 0xF0FF#16 = 0xF00A#16 ∧ ∀ k, KeySet.holds (State.reset.withFetchWord 16 0xFF0A).keys k = false := by decide

theorem witness_BcdDigitsAreStored : (State.reset.setI 0xFFD#16).mem.wf = true ∧ (State.reset.setI 0xFFD#16).I.toNat + 2 ≤ 0xFFF := by
  decide
theorem witness_RegistersAtI : (State.reset.setI 0xFF0#16).mem.wf = true ∧
    (State.reset.setI 0xFF0#16).I.toNat + (15 : Reg).val ≤ 0xFFF ∧ (State.reset.setI 0xFFF#16).I.toNat + (0 : Reg).val ≤ 0xFFF := by decide
theorem witness_LoadAfterStoreRestoresRegisters : (State.reset.setI 0xFF0#16).mem.wf = true ∧
    (State.reset.setI 0xFF0#16).I.toNat + (15 : Reg).val ≤ 0xFFF ∧
    ∃ t u v : State, exec (.storeRegs 15) (State.reset.setI 0xFF0#16) = .next t ∧ u.mem = t.mem ∧ u.I = t.I ∧ u ≠ t ∧
      exec (.loadRegs 15) u = .next v :=
  ⟨by decide, by decide, _, State.writeV _ 0 7#8, _, rfl, rfl, rfl,
    fun h => absurd (congrArg (fun s => State.readV s 0) h) (by decide), rfl⟩
theorem witness_StoredCodeIsFetchedNext :
    let s := ((regs [(0, 0x6A), (1, 0x02)]).setPc 0xFFC#16).setI 0xFFE#16
    s.mem.wf = true ∧ s.fault = none ∧ s.pc.toNat ≤ 0xFFC ∧ 1 ≤ (1 : Reg).val ∧ s.I.toNat = s.pc.toNat + 2 ∧
      s.I.toNat + (1 : Reg).val ≤ 0xFFF ∧ (∃ t, exec (.storeRegs 1) s = .next t) ∧
      decodeWord (joinBytes (s.readV 0) (s.readV 1)) = .ok (.ldImm 10 2#8) :=
  ⟨by decide, by decide, by decide, by decide, by decide, by decide, ⟨_, rfl⟩, by decide⟩

theorem witness_halted_and_running : halted.fault ≠ none ∧ State.reset.fault = none := by decide
theorem witness_BuzzLastsExactlySTTicks : ∃ before : Nat → State, (∀ k, (before k).fault = none) ∧
    (∀ k, (before (k + 1)).ST = (tick (before k)).1.ST) ∧ (before 0).ST.toNat = 2 ∧ (before 1).pc ≠ (before 0).pc := by
  refine ⟨fun k => match k with
    | 0 => State.reset.setST 2
    | 1 => (State.reset.setST 1).setPc 0x300
    | _ => State.reset, ?_, ?_, rfl, by decide⟩
  · rintro (_ | _ | _) <;> rfl
  · rintro (_ | _ | _) <;> rfl
theorem witness_OnlyRedrawAckClearsRedraw : State.reset.redraw = true ∧ (∃ t, exec (.ldF 0) State.reset = .next t) ∧
    (∃ t, performUnder defaultFont .reset State.reset = .next t) ∧ (∃ t, exec .cls State.reset = .next t ∧ t.fault = none) ∧
    (∃ t, exec (.drw 0 1 0#4) (State.reset.setI 0xFFFF#16) = .next t ∧ t.fault = none) :=
  ⟨rfl, ⟨_, rfl⟩, ⟨_, rfl⟩, ⟨_, rfl, rfl⟩, ⟨_, rfl, rfl⟩⟩
theorem witness_LoadProgramCopiesTheImage : State.reset.mem.wf = true ∧ State.reset.fault = none ∧
    (List.replicate 3583 0xAB#8).length ≤ 3583 := ⟨rfl, rfl, List.length_replicate.le⟩
theorem witness_OversizedImageRaisesLoadError : State.reset.fault = none ∧
    (List.replicate 3584 0xAB#8).length > 3583 := ⟨rfl, by rw [List.length_replicate]; decide⟩
theorem witness_DrawsAreInputsNotState : State.reset.toBlock = (State.reset.setDraws 5).toBlock ∧
    State.reset ≠ State.reset.setDraws 5 ∧ (∀ x kk, Instr.cls ≠ .rnd x kk) ∧ (∀ x, Instr.cls ≠ .ldVxK x) ∧
    ∃ t, exec .cls State.reset = .next t := ⟨rfl, by decide, nofun, nofun, _, rfl⟩
theorem witness_JumpToSelfIsAFixedPoint :
    ((State.reset.setPc 0xFFE#16).withFetchWord 16 0x1FFE).fetchOpcode = some (0x1000#16 ||| 0xFFE#16) := by decide

end Sys2Proof.Tests
end

section
/-! PROOFS. The program counter after each instruction (O16) and the discipline of the stack pointer (O20). -/

namespace Sys2Proof.Machine

/-! ### What CALL and RET can do -/

/-- Everything a RET that answers a next state can have done. -/
theorem execRet_cases {s t : State} (h : execRet s = .next t) :
    (s.sp = 0#8 ∧ t = s.setFault (some ⟨.stackUnderflow, some (encode .ret), some s.pc, none⟩)) ∨
    (0 < s.sp.toNat ∧ s.sp.toNat ≤ 16 ∧
      t = (s.setSp (s.sp - 1)).setPc (s.stack.toList.getD (s.sp.toNat - 1) 0#16)) := by
  unfold execRet at h
  by_cases h0 : s.sp = 0#8
  · rw [if_pos h0] at h
    cases h
    exact .inl ⟨h0, rfl⟩
  · have hpos : 0 < s.sp.toNat := Nat.pos_of_ne_zero fun e => h0 (BitVec.eq_of_toNat_eq e)
    rw [if_neg h0] at h
    by_cases h16 : s.sp.toNat ≤ 16
    · have hlt : s.sp.toNat - 1 < s.stack.toList.length := by simp; omega
      simp only [s.pop_some hpos h16] at h
      cases h
      refine .inr ⟨hpos, h16, ?_⟩
      rw [List.getD_eq_getElem _ _ hlt, Vector.getElem_toList]
    · simp only [s.pop_none (Nat.lt_of_not_le h16)] at h
      cases h

/-- Everything a CALL that answers a next state can have done. -/
theorem execCall_cases {nnn : Addr12} {s t : State} (h : execCall nnn s = .next t) :
    (s.sp = 16#8 ∧ t = s.setFault (some ⟨.stackOverflow, some (encode (.call nnn)), some s.pc, none⟩)) ∨
    (∃ hsp : s.sp.toNat < 16,
      t = ((s.setStack (s.stack.set s.sp.toNat (s.pc + 2))).setSp (s.sp + 1)).setPc (addrWord nnn)) := by
  unfold execCall at h
  by_cases h16 : s.sp = 16#8
  · rw [if_pos h16] at h
    cases h
    exact .inl ⟨h16, rfl⟩
  · rw [if_neg h16] at h
    by_cases hlt : s.sp.toNat < 16
    · simp only [s.push_some _ hlt] at h
      cases h
      exact .inr ⟨hlt, rfl⟩
    · simp only [s.push_none _ (Nat.le_of_not_lt hlt)] at h
      cases h

/-! ### The program counter (10_state.md R26) -/

/-- A next state of the outcome has `pc` at the instruction's own address when it records a fault, and at `n` when it
records none. -/
def State.LeavesPc (s : State) (n : Nat) (o : Result) : Prop :=
  ∀ t, o = .next t → (t.fault ≠ none → t.pc = s.pc) ∧ (t.fault = none → t.pc.toNat = n)

theorem State.leavesPc_raise (s : State) (n : Nat) (kind : FaultKind) (i : Instr) (extra : Option Nat) :
    s.LeavesPc n (s.raise kind i extra) := by
  intro t h
  cases h
  exact ⟨fun _ => rfl, nofun⟩

theorem State.leavesPc_withData {s : State} {n : Nat} {access : Result} (i : Instr) (m : Nat) (h : s.LeavesPc n access) :
    s.LeavesPc n (s.withData i m access) := by
  obtain ⟨-, e⟩ | ⟨-, -, e⟩ := s.withData_cases i m access
  · rwa [e]
  · rw [e]
    exact s.leavesPc_raise n .memOutOfBounds i _

theorem addrWord_toNat (nnn : Addr12) : (addrWord nnn).toNat = nnn.toNat := by
  simp only [addrWord, BitVec.toNat_setWidth]
  omega

/-- The 16-bit sum of `JP V0,addr` never wraps. -/
theorem addrWord_add_readVWord_toNat (nnn : Addr12) (s : State) (x : Reg) :
    (addrWord nnn + s.readVWord x).toNat = nnn.toNat + (s.readV x).toNat := by
  simp only [BitVec.toNat_add, addrWord_toNat, State.readVWord, BitVec.toNat_setWidth]
  omega

section
variable {s : State} (hf : s.fault = none)
include hf

theorem State.leavesPc_next {n : Nat} {u : State} (hu : u.fault = s.fault) (hn : u.pc.toNat = n) :
    s.LeavesPc n (.next u) := by
  intro t h
  cases h
  exact ⟨fun hne => absurd (hu.trans hf) hne, fun _ => hn⟩

theorem execRet_leavesPc : s.LeavesPc (s.stack.toList.getD (s.sp.toNat - 1) 0#16).toNat (execRet s) := by
  intro t h
  obtain ⟨-, rfl⟩ | ⟨-, -, rfl⟩ := execRet_cases h
  · exact ⟨fun _ => rfl, nofun⟩
  · exact ⟨fun hne => absurd hf hne, fun _ => rfl⟩

theorem execCall_leavesPc (nnn : Addr12) : s.LeavesPc nnn.toNat (execCall nnn s) := by
  intro t h
  obtain ⟨-, rfl⟩ | ⟨-, rfl⟩ := execCall_cases h
  · exact ⟨fun _ => rfl, nofun⟩
  · exact ⟨fun hne => absurd hf hne, fun _ => addrWord_toNat nnn⟩

variable (ha : s.pc.toNat ≤ 0xFFE)
include ha

theorem State.leavesPc_advance {u : State} (hu : u.fault = s.fault) (hpc : u.pc = s.pc) :
    s.LeavesPc (s.pc.toNat + 2) (.next u.advance) := by
  have e : (u.pc + 2).toNat = s.pc.toNat + 2 := by bv_omega
  exact State.leavesPc_next hf hu e

theorem State.leavesPc_skipIf {c : Bool} {p : Prop} [Decidable p] (hc : c = true ↔ p) :
    s.LeavesPc (if p then s.pc.toNat + 4 else s.pc.toNat + 2) (.next (s.skipIf c)) := by
  have e : (if c then s.pc + 4 else s.pc + 2).toNat = if p then s.pc.toNat + 4 else s.pc.toNat + 2 := by
    by_cases h : p
    · rw [if_pos (hc.2 h), if_pos h]
      bv_omega
    · rw [if_neg (mt hc.1 h), if_neg h]
      bv_omega
  exact State.leavesPc_next hf rfl e

/-- `SKNP`, whose row of the table names the condition under which it does not skip. -/
theorem State.leavesPc_skipIf_not {c : Bool} {p : Prop} [Decidable p] (hc : c = true ↔ p) :
    s.LeavesPc (if p then s.pc.toNat + 2 else s.pc.toNat + 4) (.next (s.skipIf !c)) := by
  have h := State.leavesPc_skipIf hf ha (c := !c) (p := ¬ p) (by simp [← hc])
  rwa [ite_not] at h

theorem waitKey_leavesPc (d : Nat) (x : Reg) :
    s.LeavesPc (if ∃ k : Key, KeySet.holds s.keys k = true then s.pc.toNat + 2 else s.pc.toNat) (waitKey d x s) := by
  unfold waitKey
  cases hheld : KeySet.held s.keys with
  | nil =>
    have hno : ¬ ∃ k : Key, KeySet.holds s.keys k = true := by simpa using (KeySet.held_nil s.keys).1 hheld
    rw [if_neg hno]
    exact State.leavesPc_next hf rfl rfl
  | cons k rest =>
    have hk : KeySet.holds s.keys k = true := (KeySet.mem_held s.keys k).1 (by simp [hheld])
    rw [if_pos ⟨k, hk⟩]
    exact State.leavesPc_advance hf ha rfl rfl

/-- Every instruction leaves `pc` as its row of the table says. -/
theorem exec_leavesPc (i : Instr) : s.LeavesPc (pcAfter i s) (exec i s) := by
  cases i with
  | sys nnn => exact s.leavesPc_raise _ .invalidOpcode (.sys nnn) none
  | ret => exact execRet_leavesPc hf
  | call nnn => exact execCall_leavesPc hf nnn
  | jp nnn => exact State.leavesPc_next hf rfl (addrWord_toNat nnn)
  | jpV0 nnn => exact State.leavesPc_next hf rfl (addrWord_add_readVWord_toNat nnn s 0)
  | seImm x kk | seReg x y => exact State.leavesPc_skipIf hf ha beq_iff_eq
  | sneImm x kk | sneReg x y => exact State.leavesPc_skipIf hf ha bne_iff_ne
  | skp x => exact State.leavesPc_skipIf hf ha (KeySet.isPressed_iff s.keys (s.readV x))
  | sknp x => exact State.leavesPc_skipIf_not hf ha (KeySet.isPressed_iff s.keys (s.readV x))
  | ldVxK x => exact waitKey_leavesPc hf ha _ x
  | drw x y n | ldB x | storeRegs x => exact State.leavesPc_withData _ _ (State.leavesPc_advance hf ha rfl rfl)
  | loadRegs x =>
    exact State.leavesPc_withData _ _
      (State.leavesPc_advance hf ha (State.writeRegs_fault _ s 0) (State.writeRegs_pc _ s 0))
  | cls | ldImm x kk | addImm x kk | ldReg x y | orReg x y | andReg x y | xorReg x y | addReg x y | subReg x y
  | shr x y | subnReg x y | shl x y | rnd x kk | ldVxDt x | ldDtVx x | ldStVx x | ldI nnn | addI x | ldF x =>
    exact State.leavesPc_advance hf ha rfl rfl

end

/-- Settles O16: `exec_leavesPc`, which goes through the rows of R26 one shared operation at a time. -/
theorem pcAfterEachInstruction : Obligations.PcAfterEachInstruction := by
  intro i s t hf ha h
  exact exec_leavesPc hf ha i t h

/-! ### The stack pointer (10_state.md R28) -/

@[simp] theorem mapNext_next (f : State → State) (s : State) : mapNext f (.next s) = .next (f s) := rfl

theorem State.writeRegs_setSp (bs : List Byte) (s : State) (k : Nat) (v : Byte) :
    (s.setSp v).writeRegs k bs = (s.writeRegs k bs).setSp v := by
  induction bs generalizing s k with
  | nil => rfl
  | cons b bs ih =>
    simp only [State.writeRegs]
    split
    · exact ih (s.writeV _ b) (k + 1)
    · exact ih s (k + 1)

/-- The data bound does not look at `sp`. -/
theorem State.withData_setSp (s : State) (v : Byte) (i : Instr) (m : Nat) {access access' : Result}
    (h : access' = mapNext (fun t => t.setSp v) access) :
    (s.setSp v).withData i m access' = mapNext (fun t => t.setSp v) (s.withData i m access) := by
  obtain ⟨hfit, e⟩ | ⟨hm, hover, e⟩ := s.withData_cases i m access
  · rw [e, (s.setSp v).withData_fits i m access' hfit, h]
  · rw [e, (s.setSp v).withData_overrun i m access' hm hover]
    rfl

theorem waitKey_setSp (d : Nat) (x : Reg) (s : State) (v : Byte) :
    waitKey d x (s.setSp v) = mapNext (fun t => t.setSp v) (waitKey d x s) := by
  simp only [waitKey, State.setSp_keys]
  split <;> rfl

/-- An instruction other than CALL and RET neither reads `sp` nor writes it. -/
theorem exec_setSp (i : Instr) (s : State) (v : Byte) (hcall : ∀ nnn, i ≠ .call nnn) (hret : i ≠ .ret) :
    exec i (s.setSp v) = mapNext (fun t => t.setSp v) (exec i s) := by
  cases i with
  | call nnn => exact absurd rfl (hcall nnn)
  | ret => exact absurd rfl hret
  | ldVxK x => exact waitKey_setSp _ x s v
  | drw x y n | ldB x | storeRegs x => exact s.withData_setSp v _ _ rfl
  | loadRegs x =>
    refine s.withData_setSp v _ _ ?_
    rw [State.writeRegs_setSp]
    rfl
  | cls | sys nnn | jp nnn | seImm x kk | sneImm x kk | seReg x y | ldImm x kk | addImm x kk | ldReg x y | orReg x y
  | andReg x y | xorReg x y | addReg x y | subReg x y | shr x y | subnReg x y | shl x y | sneReg x y | ldI nnn
  | jpV0 nnn | rnd x kk | skp x | sknp x | ldVxDt x | ldDtVx x | ldStVx x | addI x | ldF x => rfl

/-- An instruction other than CALL and RET leaves `sp`: by `exec_setSp` its outcome is the same with `sp` set back to
what it was. -/
theorem exec_sp_of_ne {i : Instr} {s t : State} (hcall : ∀ nnn, i ≠ .call nnn) (hret : i ≠ .ret)
    (h : exec i s = .next t) : t.sp = s.sp := by
  have e := exec_setSp i s s.sp hcall hret
  rw [State.setSp_self, h, mapNext_next, Host.Outcome.next.injEq] at e
  rw [e, State.setSp_sp]

theorem execRet_sp_le {s t : State} (hsp : s.sp.toNat ≤ 16) (h : execRet s = .next t) : t.sp.toNat ≤ 16 := by
  obtain ⟨-, rfl⟩ | ⟨hpos, -, rfl⟩ := execRet_cases h
  · exact hsp
  · have e : (s.sp - 1).toNat = s.sp.toNat - 1 := s.sp_sub_one hpos
    simp only [State.setPc_sp, State.setSp_sp, e]
    omega

theorem execCall_sp_le {nnn : Addr12} {s t : State} (hsp : s.sp.toNat ≤ 16) (h : execCall nnn s = .next t) :
    t.sp.toNat ≤ 16 := by
  obtain ⟨-, rfl⟩ | ⟨hlt, rfl⟩ := execCall_cases h
  · exact hsp
  · have e : (s.sp + 1).toNat = s.sp.toNat + 1 := s.sp_add_one hlt
    simp only [State.setPc_sp, State.setSp_sp, e]
    omega

theorem exec_sp_le {i : Instr} {s t : State} (hsp : s.sp.toNat ≤ 16) (h : exec i s = .next t) : t.sp.toNat ≤ 16 := by
  by_cases hcall : ∃ nnn, i = .call nnn
  · obtain ⟨nnn, rfl⟩ := hcall
    exact execCall_sp_le hsp h
  · by_cases hret : i = .ret
    · subst hret
      exact execRet_sp_le hsp h
    · rwa [exec_sp_of_ne (not_exists.1 hcall) hret h]

theorem step_sp_le {s t : State} (hsp : s.sp.toNat ≤ 16) (h : step s = .next t) : t.sp.toNat ≤ 16 := by
  obtain ⟨-, rfl⟩ | ⟨-, -, rfl⟩ | ⟨_, _, -, -, -, rfl⟩ | ⟨_, _, -, -, -, he⟩ := step_cases h
  · exact hsp
  · exact hsp
  · exact hsp
  · exact exec_sp_le hsp he

@[simp] theorem loadProgram_sp (bytes : List Byte) (s : State) : (loadProgram bytes s).sp = s.sp := by
  unfold loadProgram
  split
  · rfl
  · split <;> rfl

@[simp] theorem tick_sp (s : State) : (tick s).1.sp = s.sp := by
  unfold tick
  split <;> rfl

@[simp] theorem keyUpdate_sp (pressed : List HostKey) (s : State) : (keyUpdate pressed s).sp = s.sp := by
  unfold keyUpdate keyUpdateUnder
  split <;> rfl

@[simp] theorem redrawAck_sp (s : State) : (redrawAck s).sp = s.sp := by
  unfold redrawAck
  split <;> rfl

@[simp] theorem resetUnder_sp (font : Font) (s : State) : (resetUnder font s).sp = 0#8 := rfl

/-- No operation takes `sp` outside 0..16. -/
theorem performUnder_sp_le {font : Font} {o : Op} {s t : State} (hsp : s.sp.toNat ≤ 16)
    (h : performUnder font o s = .next t) : t.sp.toNat ≤ 16 := by
  cases o with
  | step => exact step_sp_le hsp h
  | reset => cases h; simp
  | loadProgram bytes | tick | keyUpdate pressed | redrawAck => cases h; simpa using hsp

/-- A CALL of a running block: the fault at `sp = 16`, and otherwise the store at the old `sp` before the increment. -/
theorem execCall_sp {nnn : Addr12} {s t : State} (hf : s.fault = none) (h : execCall nnn s = .next t) :
    if s.sp = 16#8 then t.fault ≠ none
    else t.fault = none ∧ t.stack.toList.getD s.sp.toNat 0#16 = s.pc + 2 ∧ t.sp.toNat = s.sp.toNat + 1 := by
  obtain ⟨h16, rfl⟩ | ⟨hlt, rfl⟩ := execCall_cases h
  · rw [if_pos h16]
    exact nofun
  · have hne : s.sp ≠ 16#8 := fun e => absurd hlt (by simp [e])
    rw [if_neg hne]
    exact ⟨hf, by simp [hlt], s.sp_add_one hlt⟩

/-- A RET of a running block: the fault at `sp = 0`, and otherwise the decrement before the read at the new `sp`. -/
theorem execRet_sp {s t : State} (hf : s.fault = none) (h : execRet s = .next t) :
    if s.sp = 0#8 then t.fault ≠ none
    else t.fault = none ∧ s.sp.toNat = t.sp.toNat + 1 ∧ t.pc = s.stack.toList.getD t.sp.toNat 0#16 := by
  obtain ⟨h0, rfl⟩ | ⟨hpos, -, rfl⟩ := execRet_cases h
  · rw [if_pos h0]
    exact nofun
  · have hne : s.sp ≠ 0#8 := fun e => absurd hpos (by simp [e])
    have e : (s.sp - 1).toNat = s.sp.toNat - 1 := s.sp_sub_one hpos
    rw [if_neg hne]
    refine ⟨hf, ?_, ?_⟩
    · rw [State.setPc_sp, State.setSp_sp, e]
      omega
    · rw [State.setPc_sp, State.setSp_sp, e, State.setPc_pc]

/-- Settles O20: the range by one lemma per operation, the independence of `sp` by `exec_setSp`, and the two ends by the
case lemmas of CALL and RET. -/
theorem stackPointerDiscipline : Obligations.StackPointerDiscipline :=
  ⟨rfl, fun _ _ _ _ hsp h => performUnder_sp_le hsp h, exec_setSp, fun _ _ _ hf h => execCall_sp hf h,
    fun _ _ hf h => execRet_sp hf h⟩

end Sys2Proof.Machine
end

section
/-! PROOFS. The row of the opcode map that a word selects (O4) and the step cycle in full (O7). -/

namespace Sys2Proof

/-! ### The words that a row of the opcode map admits (30_encoding.md R101) -/

theorem OpcodeRow.admits_iff (r : OpcodeRow) (w : Word) : r.admits w = true ↔ w &&& r.mask = r.pat := beq_iff_eq

theorem opField_mask : ∀ r ∈ opcodeRows, opField r.mask = BitVec.allOnes 4 := by decide

theorem opField_of_admits {r : OpcodeRow} {w : Word} (hr : r ∈ opcodeRows) (h : r.admits w = true) :
    opField r.pat = opField w := by
  rw [← (r.admits_iff w).1 h, opField_and w r.mask (opField_mask r hr)]

/-- The rows whose pattern has the major nibble `op`, in the order of the map. -/
def rowsOf (op : Nibble) : List OpcodeRow := opcodeRows.filter (fun r => opField r.pat == op)

/-- Every row fixes the major nibble, so the first row that admits a word is the first one among those of its own. -/
theorem find?_opcodeRows (w : Word) :
    opcodeRows.find? (fun r => r.admits w) = (rowsOf (opField w)).find? (fun r => r.admits w) := by
  rw [rowsOf, List.find?_filter]
  refine List.find?_congr fun r hr => ?_
  by_cases h : r.admits w = true
  · simp [h, opField_of_admits hr h]
  · simp [h]

/-! A row of the word's own major nibble, by the further field that its mask fixes. -/

theorem and_major (w : Word) : w &&& 0xF000#16 = wordNNN (opField w) 0 := by
  conv_lhs => rw [word_eq_nnn w]
  exact Laws.MatchesRow.nnn_matches _ _

theorem and_xyn (w : Word) : w &&& 0xF00F#16 = wordXYN (opField w) 0 0 (nField w) := by
  conv_lhs => rw [word_eq_xyn w]
  exact Laws.MatchesRow.xy_matches _ _ _ _

theorem and_xkk (w : Word) : w &&& 0xF0FF#16 = wordXKK (opField w) 0 (kkField w) := by
  conv_lhs => rw [word_eq_xkk w]
  exact Laws.MatchesRow.x_matches _ _ _

theorem admits_word {r : OpcodeRow} {w : Word} (hmask : r.mask = 0xFFFF#16) : r.admits w = decide (w = r.pat) := by
  have hall : w &&& 0xFFFF#16 = w := BitVec.and_allOnes
  rw [OpcodeRow.admits, hmask, hall, beq_eq_decide]

theorem admits_major {r : OpcodeRow} {w : Word} (hmask : r.mask = 0xF000#16)
    (hpat : r.pat = wordNNN (opField w) 0) : r.admits w = true := by
  rw [OpcodeRow.admits_iff, hmask, hpat, and_major]

theorem admits_xyn {r : OpcodeRow} {w : Word} (hmask : r.mask = 0xF00F#16)
    (hpat : r.pat = wordXYN (opField w) 0 0 (nField r.pat)) :
    r.admits w = ((nField r.pat).toNat == (nField w).toNat) := by
  rw [Bool.eq_iff_iff, OpcodeRow.admits_iff, beq_iff_eq, BitVec.toNat_inj, hmask, and_xyn]
  constructor
  · intro h
    rw [← h, nField_wordXYN]
  · intro h
    rw [hpat, h]

theorem admits_xkk {r : OpcodeRow} {w : Word} (hmask : r.mask = 0xF0FF#16)
    (hpat : r.pat = wordXKK (opField w) 0 (kkField r.pat)) :
    r.admits w = ((kkField r.pat).toNat == (kkField w).toNat) := by
  rw [Bool.eq_iff_iff, OpcodeRow.admits_iff, beq_iff_eq, BitVec.toNat_inj, hmask, and_xkk]
  constructor
  · intro h
    rw [← h, kkField_wordXKK]
  · intro h
    rw [hpat, h]

/-! ### The first row, one major nibble at a time -/

/-- The mnemonic of the first row of the map that admits the word, if there is one. -/
def firstMnemonic (w : Word) : Option String :=
  (opcodeRows.find? (fun r => r.admits w)).map OpcodeRow.mnemonic

theorem firstMnemonic_eq {op : Nibble} {w : Word} (hop : opField w = op) :
    firstMnemonic w = ((rowsOf op).find? (fun r => r.admits w)).map OpcodeRow.mnemonic := by
  rw [firstMnemonic, find?_opcodeRows, hop]

/-- A major nibble with one row, which fixes nothing else: the row is selected. -/
theorem firstMnemonic_major {op : Nibble} {w : Word} {name : String} (hop : opField w = op)
    (hrows : rowsOf op = [⟨name, 0xF000, wordNNN op 0⟩]) : firstMnemonic w = some name := by
  subst hop
  have h := admits_major (r := ⟨name, 0xF000, wordNNN (opField w) 0⟩) (w := w) rfl rfl
  rw [firstMnemonic_eq rfl, hrows, List.find?_singleton, h]
  rfl

/-- A major nibble whose rows also fix the minor nibble. -/
theorem firstMnemonic_xyn {op : Nibble} {w : Word} (hop : opField w = op)
    (hrows : ∀ r ∈ rowsOf op, r.mask = 0xF00F#16 ∧ r.pat = wordXYN op 0 0 (nField r.pat)) :
    firstMnemonic w =
      ((rowsOf op).find? (fun r => (nField r.pat).toNat == (nField w).toNat)).map OpcodeRow.mnemonic := by
  subst hop
  rw [firstMnemonic_eq rfl, List.find?_congr fun r hr => admits_xyn (hrows r hr).1 (hrows r hr).2]

/-- A major nibble whose rows also fix the low byte. -/
theorem firstMnemonic_xkk {op : Nibble} {w : Word} (hop : opField w = op)
    (hrows : ∀ r ∈ rowsOf op, r.mask = 0xF0FF#16 ∧ r.pat = wordXKK op 0 (kkField r.pat)) :
    firstMnemonic w =
      ((rowsOf op).find? (fun r => (kkField r.pat).toNat == (kkField w).toNat)).map OpcodeRow.mnemonic := by
  subst hop
  rw [firstMnemonic_eq rfl, List.find?_congr fun r hr => admits_xkk (hrows r hr).1 (hrows r hr).2]

/-- No row has the code that the word has in its minor field. -/
theorem find?_code_none {rows : List OpcodeRow} {code : OpcodeRow → Nat} {codes : List Nat} {n : Nat}
    (hcodes : rows.map code = codes) (hn : n ∉ codes) : rows.find? (fun r => code r == n) = none := by
  rw [List.find?_eq_none]
  intro r hr hcode
  rw [← hcodes, ← beq_iff_eq.1 hcode] at hn
  exact hn (List.mem_map_of_mem hr)

/-- A major nibble with one row, which also fixes the minor nibble as 0. -/
theorem firstMnemonic_xy {op : Nibble} {w : Word} (name : String) (hop : opField w = op)
    (hrows : rowsOf op = [⟨name, 0xF00F, wordXYN op 0 0 0⟩]) :
    firstMnemonic w = if nField w = 0#4 then some name else none := by
  rw [firstMnemonic_xyn hop (by simp [hrows]), hrows, List.find?_singleton, nField_wordXYN]
  by_cases hn : nField w = 0#4
  · simp [hn]
  · have hne : (BitVec.toNat (0 : Nibble) == (nField w).toNat) = false :=
      beq_eq_false_iff_ne.2 fun e => hn (BitVec.eq_of_toNat_eq e.symm)
    rw [hne, if_neg hn]
    rfl

/-- The major nibble 0: the three rows in their order (R101). -/
theorem firstMnemonic_zero {w : Word} (hop : opField w = 0x0#4) :
    firstMnemonic w = if w = 0x00E0#16 then some "CLS" else if w = 0x00EE#16 then some "RET" else some "SYS_addr" := by
  have hrows : rowsOf 0x0#4 =
      [⟨"CLS", 0xFFFF#16, 0x00E0#16⟩, ⟨"RET", 0xFFFF#16, 0x00EE#16⟩, ⟨"SYS_addr", 0xF000#16, 0x0000#16⟩] := by
    decide
  have hsys : OpcodeRow.admits ⟨"SYS_addr", 0xF000#16, 0x0000#16⟩ w = true := admits_major rfl (by rw [hop]; rfl)
  rw [firstMnemonic_eq hop, hrows]
  by_cases hcls : w = 0x00E0#16
  · subst hcls
    rfl
  · by_cases hret : w = 0x00EE#16
    · subst hret
      rfl
    · simp [admits_word, hsys, hcls, hret]

/-! ### The decoder -/

/-- The mnemonic of what a decoder answers, if it is an instruction. -/
def mnemonicOf (d : Except DecodeError Instr) : Option String :=
  match d with
  | .ok i => some i.mnemonic
  | .error _ => none

theorem decodeAlu_mnemonic {w : Word} (hop : opField w = 0x8#4) : mnemonicOf (decodeAlu w) = firstMnemonic w := by
  rw [firstMnemonic_xyn hop (by decide), decodeAlu]
  generalize (nField w).toNat = n
  split
  case h_10 =>
    rw [find?_code_none (codes := [0x0, 0x1, 0x2, 0x3, 0x4, 0x5, 0x6, 0x7, 0xE]) (by decide) (by simp_all)]
    rfl
  all_goals rfl

theorem decodeKey_mnemonic {w : Word} (hop : opField w = 0xE#4) : mnemonicOf (decodeKey w) = firstMnemonic w := by
  rw [firstMnemonic_xkk hop (by decide), decodeKey]
  generalize (kkField w).toNat = n
  split
  case h_3 =>
    rw [find?_code_none (codes := [0x9E, 0xA1]) (by decide) (by simp_all)]
    rfl
  all_goals rfl

theorem decodeMisc_mnemonic {w : Word} (hop : opField w = 0xF#4) : mnemonicOf (decodeMisc w) = firstMnemonic w := by
  rw [firstMnemonic_xkk hop (by decide), decodeMisc]
  generalize (kkField w).toNat = n
  split
  case h_10 =>
    rw [find?_code_none (codes := [0x07, 0x0A, 0x15, 0x18, 0x1E, 0x29, 0x33, 0x55, 0x65]) (by decide) (by simp_all)]
    rfl
  all_goals rfl

/-- The decoder and the opcode map select the same mnemonic, one major nibble at a time. -/
theorem decodeWord_mnemonic (w : Word) : mnemonicOf (decodeWord w) = firstMnemonic w := by
  have hop {k : Nat} (h : (opField w).toNat = k) : opField w = BitVec.ofNat 4 k := by
    rw [← h, BitVec.ofNat_toNat, BitVec.setWidth_eq]
  unfold decodeWord
  split
  case h_1 h =>
    rw [firstMnemonic_zero (hop h)]
    split
    · rfl
    · split <;> rfl
  case h_6 h =>
    rw [firstMnemonic_xy "SE_Vx_Vy" (hop h) (by decide)]
    split <;> rfl
  case h_9 h => exact decodeAlu_mnemonic (hop h)
  case h_10 h =>
    rw [firstMnemonic_xy "SNE_Vx_Vy" (hop h) (by decide)]
    split <;> rfl
  case h_15 h => exact decodeKey_mnemonic (hop h)
  case h_16 =>
    have hF : (opField w).toNat = 0xF := by
      have hlt := (opField w).isLt
      simp only [imp_false] at *
      omega
    exact decodeMisc_mnemonic (hop hF)
  all_goals exact (firstMnemonic_major (hop ‹_›) rfl).symm

/-! ### The overlaps of the map -/

/-- What two rows that admit one word have in common: where both masks are set, their patterns agree. -/
theorem pat_and_mask_of_admits {p q : OpcodeRow} {w : Word} (hp : p.admits w = true) (hq : q.admits w = true) :
    p.pat &&& q.mask = q.pat &&& p.mask := by
  rw [OpcodeRow.admits_iff] at hp hq
  rw [← hp, ← hq, BitVec.and_assoc, BitVec.and_assoc, BitVec.and_comm p.mask]

/-- Only SYS overlaps, and only a row before it that fixes the whole word. -/
theorem opcodeRows_overlap : opcodeRows.Pairwise fun p q =>
    p.pat &&& q.mask = q.pat &&& p.mask →
      p.mask = 0xFFFF#16 ∧ (p.pat = 0x00E0#16 ∨ p.pat = 0x00EE#16) ∧ q.mnemonic = "SYS_addr" := by
  decide

/-- One word satisfies both rows only where R101 says so. -/
def OverlapIsSys (p q : OpcodeRow) : Prop :=
  ∀ w : Word, p.admits w = true → q.admits w = true →
    (w = 0x00E0#16 ∨ w = 0x00EE#16) ∧ (p.mnemonic = "SYS_addr" ∨ q.mnemonic = "SYS_addr")

theorem OverlapIsSys.symm {p q : OpcodeRow} (h : OverlapIsSys p q) : OverlapIsSys q p := by
  intro w hq hp
  obtain ⟨hw, hsys⟩ := h w hp hq
  exact ⟨hw, hsys.symm⟩

theorem opcodeRows_overlapIsSys {p q : OpcodeRow} (hp : p ∈ opcodeRows) (hq : q ∈ opcodeRows) (hne : p ≠ q) :
    OverlapIsSys p q := by
  have hsymm : Std.Symm OverlapIsSys := ⟨fun _ _ => OverlapIsSys.symm⟩
  refine List.Pairwise.forall (opcodeRows_overlap.imp ?_) hp hq hne
  intro p q hpq w hp hq
  obtain ⟨hmask, hpat, hsys⟩ := hpq (pat_and_mask_of_admits hp hq)
  rw [admits_word hmask, decide_eq_true_iff] at hp
  rw [hp]
  exact ⟨hpat, .inr hsys⟩

/-- Settles O4: the first row by `decodeWord_mnemonic`, one major nibble at a time, and the overlaps by comparing the
rows in pairs. -/
theorem decodeSelectsTheFirstMatchingRow : Obligations.DecodeSelectsTheFirstMatchingRow :=
  ⟨decodeWord_mnemonic, fun w _ _ hp hq hne => opcodeRows_overlapIsSys hp hq hne w⟩

end Sys2Proof

namespace Sys2Proof.Machine

/-! ### The step cycle (30_encoding.md R100) -/

/-- The word of two bytes has the first one's value times 256 plus the second one's (20_memory.md R62). -/
theorem joinBytes_toNat (hi lo : Byte) : (joinBytes hi lo).toNat = 256 * hi.toNat + lo.toNat := by
  rw [joinBytes, BitVec.toNat_append, ← Nat.shiftLeft_add_eq_or_of_lt lo.isLt, Nat.shiftLeft_eq, Nat.mul_comm]

/-- The word with the value of the two bytes at `pc` is what a block fetches inside the bound. -/
theorem State.fetchOpcode_of_toNat {s : State} {w : Word} (hpc : s.pc.toNat + 1 ≤ 0xFFF)
    (hw : w.toNat = 256 * (s.mem.read s.pc.toNat).toNat + (s.mem.read (s.pc.toNat + 1)).toNat) :
    s.fetchOpcode = some w :=
  (s.fetchOpcode_some w).2 ⟨hpc, BitVec.eq_of_toNat_eq (hw.trans (joinBytes_toNat _ _).symm)⟩

/-- Settles O7: one lemma about `step` per clause, with the fetched word given by its value. -/
theorem stepFetchesDecodesAndExecutes : Obligations.StepFetchesDecodesAndExecutes := by
  intro s
  refine ⟨step_halted s, fun hf hpc => step_noFetch s hf (s.fetchOpcode_none.2 hpc), ?_⟩
  intro hf hpc w hw
  have ho : s.fetchOpcode = some w := State.fetchOpcode_of_toNat hpc hw
  refine ⟨?_, fun i hi => step_runs s w i hf ho hi⟩
  intro hno
  cases hd : decodeWord w with
  | ok i => exact absurd hd (hno i)
  | error e => exact step_invalid s w e hf ho hd

end Sys2Proof.Machine
end

section
/-! PROOFS. The register instructions: LD Vx,kk (O30), and the five that write a result and then the flag (O32 to O36). -/

namespace Sys2Proof.Machine

/-! ### Words known by a mask (30_encoding.md R101) -/

/-- A mask that fixes the major nibble only leaves the decoder that nibble to go by. -/
theorem decodesAs_major {pat : Word} {make : Word → Instr}
    (hdec : ∀ w, opField w = opField pat → decodeWord w = .ok (make w)) : DecodesAs 0xF000#16 pat make := by
  intro w hw
  have hop : opField w = opField pat := by rw [← hw, opField_and w _ (by decide)]
  exact hdec w hop

/-- A mask that fixes the major and the minor nibble leaves the decoder those two to go by. -/
theorem decodesAs_xyn {pat : Word} {make : Word → Instr}
    (hdec : ∀ w, opField w = opField pat → nField w = nField pat → decodeWord w = .ok (make w)) :
    DecodesAs 0xF00F#16 pat make := by
  intro w hw
  have hop : opField w = opField pat := by rw [← hw, opField_and w _ (by decide)]
  have hn : nField w = nField pat := by rw [← hw, nField_and w _ (by decide)]
  exact hdec w hop hn

theorem decodeWord_of_opField_eight {w : Word} (hop : opField w = 0x8#4) : decodeWord w = decodeAlu w := by
  rw [decodeWord, hop]
  rfl

/-- The words 8xyN of one minor nibble N. -/
theorem decodesAs_alu {pat : Word} {make : Word → Instr} (hpat : opField pat = 0x8#4)
    (hdec : ∀ w, nField w = nField pat → decodeAlu w = .ok (make w)) : DecodesAs 0xF00F#16 pat make :=
  decodesAs_xyn fun w hop hn => (decodeWord_of_opField_eight (hop.trans hpat)).trans (hdec w hn)

/-! ### What a result and a flag leave (41_alu.md R163) -/

theorem Touches.only_writeV_advance (s : State) (x : Reg) (v : Byte) :
    ({ regs := [x] } : Touches).only s (s.writeV x v).advance := by
  refine ⟨fun r hr => ?_, ?_⟩
  · exact s.readV_writeV_of_ne v (List.ne_of_not_mem_cons hr)
  · simp

theorem Touches.only_writeResultFlag_advance (s : State) (x : Reg) (v : Byte) (b : Bool) :
    ({ regs := [x, VF] } : Touches).only s (s.writeResultFlag x v b).advance := by
  refine ⟨fun r hr => ?_, ?_⟩
  · obtain ⟨hx, hvf⟩ : r ≠ x ∧ r ≠ VF := by simpa using hr
    exact (State.readV_writeV_of_ne _ _ hvf).trans (s.readV_writeV_of_ne v hx)
  · simp

theorem State.setResult_completes (s : State) (x : Reg) (v : Byte) :
    ∃ t, s.setResult x v = .next t ∧ t.readV x = v ∧ t.pc = s.pc + 2 ∧ ({ regs := [x] } : Touches).only s t :=
  ⟨_, rfl, s.readV_writeV_same x v, rfl, Touches.only_writeV_advance s x v⟩

/-- An instruction that writes a result and then the flag: the flag is what VF holds, also when it is the result's own
register. -/
theorem State.setResultFlag_completes {s : State} {o : Result} {x : Reg} {v : Byte} {b : Bool} {result flag : Nat}
    (ho : o = s.setResultFlag x v b) (hv : v.toNat = result) (hb : (flagByte b).toNat = flag) :
    ∃ t, o = .next t ∧ (x ≠ VF → (t.readV x).toNat = result) ∧ (t.readV VF).toNat = flag ∧
      t.pc = s.pc + 2 ∧ ({ regs := [x, VF] } : Touches).only s t := by
  subst ho hv hb
  refine ⟨_, rfl, fun hx => ?_, ?_, rfl, Touches.only_writeResultFlag_advance s x v b⟩
  · have hread : ((s.writeResultFlag x v b).advance).readV x = v :=
      (State.readV_writeV_of_ne _ _ hx).trans (s.readV_writeV_same x v)
    rw [hread]
  · have hread : ((s.writeResultFlag x v b).advance).readV VF = flagByte b := State.readV_writeV_same _ _ _
    rw [hread]

/-! ### Results and flags as numbers (41_alu.md R162) -/

theorem flagByte_toNat (b : Bool) : (flagByte b).toNat = b.toNat := by cases b <;> rfl

theorem flagByte_carryOut_toNat (a b : Byte) :
    (flagByte (carryOut a b)).toNat = if a.toNat + b.toNat ≥ 256 then 1 else 0 :=
  (flagByte_toNat _).trans (Bool.cond_decide _ _ _)

theorem flagByte_noBorrow_toNat (a b : Byte) :
    (flagByte (noBorrow a b)).toNat = if a.toNat ≥ b.toNat then 1 else 0 :=
  (flagByte_toNat _).trans (Bool.cond_decide _ _ _)

theorem flagByte_shiftedOutRight_toNat (a : Byte) : (flagByte (shiftedOutRight a)).toNat = a.toNat % 2 := by
  rw [flagByte_toNat, shiftedOutRight, BitVec.getLsbD, Nat.toNat_testBit, Nat.pow_zero, Nat.div_one]

theorem flagByte_shiftedOutLeft_toNat (a : Byte) : (flagByte (shiftedOutLeft a)).toNat = a.toNat / 128 := by
  have hlt : a.toNat < 256 := a.isLt
  rw [flagByte_toNat, shiftedOutLeft, BitVec.getLsbD, Nat.toNat_testBit]
  omega

theorem byte_sub_toNat (a b : Byte) :
    (a - b).toNat = if a.toNat ≥ b.toNat then a.toNat - b.toNat else a.toNat + 256 - b.toNat := by
  rw [BitVec.toNat_sub]
  split <;> omega

theorem byte_shiftRight_one_toNat (a : Byte) : (a >>> 1).toNat = a.toNat / 2 := by
  rw [BitVec.toNat_ushiftRight, Nat.shiftRight_one]

theorem byte_shiftLeft_one_toNat (a : Byte) : (a <<< 1).toNat = 2 * a.toNat % 256 := by
  rw [BitVec.toNat_shiftLeft, Nat.shiftLeft_eq, Nat.mul_comm]

/-! ### The obligations (41_alu.md section 2) -/

/-- Settles O30: the major nibble alone selects the row, and the result is the one write. -/
theorem loadImmediate : Obligations.LoadImmediate := by
  refine ⟨decodesAs_major fun w hop => ?_, fun x kk s => s.setResult_completes x kk⟩
  rw [decodeWord, hop]
  rfl

/-- Settles O32: the sum modulo 256 is `BitVec` addition, and the carry is `carryOut`. -/
theorem addSetsCarry : Obligations.AddSetsCarry :=
  ⟨decodesAs_alu rfl fun w hn => by rw [decodeAlu, hn]; rfl,
    fun _ _ _ => State.setResultFlag_completes rfl (BitVec.toNat_add _ _) (flagByte_carryOut_toNat _ _)⟩

/-- Settles O33: `byte_sub_toNat` splits on the borrow that `noBorrow` reports. -/
theorem subSetsNoBorrow : Obligations.SubSetsNoBorrow :=
  ⟨decodesAs_alu rfl fun w hn => by rw [decodeAlu, hn]; rfl,
    fun _ _ _ => State.setResultFlag_completes rfl (byte_sub_toNat _ _) (flagByte_noBorrow_toNat _ _)⟩

/-- Settles O34: Vx alone, as its half and its remainder by 2. -/
theorem shiftRightIntoVF : Obligations.ShiftRightIntoVF :=
  ⟨decodesAs_alu rfl fun w hn => by rw [decodeAlu, hn]; rfl,
    fun _ _ _ => State.setResultFlag_completes rfl (byte_shiftRight_one_toNat _) (flagByte_shiftedOutRight_toNat _)⟩

/-- Settles O35: the subtraction of O33 with Vy as the minuend. -/
theorem subnSetsNoBorrow : Obligations.SubnSetsNoBorrow :=
  ⟨decodesAs_alu rfl fun w hn => by rw [decodeAlu, hn]; rfl,
    fun _ _ _ => State.setResultFlag_completes rfl (byte_sub_toNat _ _) (flagByte_noBorrow_toNat _ _)⟩

/-- Settles O36: Vx alone, doubled modulo 256, with its quotient by 128 as the flag. -/
theorem shiftLeftIntoVF : Obligations.ShiftLeftIntoVF :=
  ⟨decodesAs_alu rfl fun w hn => by rw [decodeAlu, hn]; rfl,
    fun _ _ _ => State.setResultFlag_completes rfl (byte_shiftLeft_one_toNat _) (flagByte_shiftedOutLeft_toNat _)⟩

end Sys2Proof.Machine
end

section
/-! PROOFS. The redraw flag (O55) and CLS (O38). -/

namespace Sys2Proof.Machine

/-! ### Shared operations and a change of state they do not look at -/

/-- A load of registers commutes with every change of state that a single register write commutes with. -/
theorem State.writeRegs_comm {f : State → State} (hf : ∀ (s : State) x v, (f s).writeV x v = f (s.writeV x v))
    (bs : List Byte) (s : State) (k : Nat) : (f s).writeRegs k bs = f (s.writeRegs k bs) := by
  induction bs generalizing s k with
  | nil => rfl
  | cons b bs ih =>
    simp only [State.writeRegs]
    split
    · rw [hf, ih]
    · rw [ih]

/-- The data bound looks at `I` only, and its fault records `pc`: a change of state that keeps both and leaves the fault
register alone can be made before or after the access. -/
theorem State.withData_comm {f : State → State} {s : State} (hI : (f s).I = s.I) (hpc : (f s).pc = s.pc)
    (hfault : ∀ r, (f s).setFault r = f (s.setFault r)) (i : Instr) (m : Nat) {access access' : Result}
    (h : access' = mapNext f access) : (f s).withData i m access' = mapNext f (s.withData i m access) := by
  obtain ⟨hfit, e⟩ | ⟨hm, hover, e⟩ := s.withData_cases i m access
  · rw [e, (f s).withData_fits i m access' (by rwa [hI]), h]
  · rw [e, (f s).withData_overrun i m access' hm (by rwa [hI]), mapNext_next, hI, hpc, hfault]

/-! ### The redraw flag and the instructions (42_display.md R186) -/

theorem State.push_setRedraw (s : State) (b : Bool) (w : Word) :
    (s.setRedraw b).push w = (s.push w).map fun t => t.setRedraw b := by
  by_cases hlt : s.sp.toNat < 16
  · rw [s.push_some w hlt, (s.setRedraw b).push_some w hlt]
    rfl
  · rw [s.push_none w (Nat.le_of_not_lt hlt), (s.setRedraw b).push_none w (Nat.le_of_not_lt hlt)]
    rfl

theorem State.pop_setRedraw (s : State) (b : Bool) :
    (s.setRedraw b).pop = s.pop.map fun p => (p.1, p.2.setRedraw b) := by
  simp only [State.pop, State.setRedraw_sp, State.setRedraw_stack, Option.map_map]
  rfl

theorem execRet_setRedraw (s : State) (b : Bool) :
    execRet (s.setRedraw b) = mapNext (fun t => t.setRedraw b) (execRet s) := by
  simp only [execRet, State.setRedraw_sp, State.pop_setRedraw]
  split
  · rfl
  · cases s.pop <;> rfl

theorem execCall_setRedraw (nnn : Addr12) (s : State) (b : Bool) :
    execCall nnn (s.setRedraw b) = mapNext (fun t => t.setRedraw b) (execCall nnn s) := by
  simp only [execCall, State.setRedraw_sp, State.setRedraw_pc, State.push_setRedraw]
  split
  · rfl
  · cases s.push (s.pc + 2) <;> rfl

theorem waitKey_setRedraw (d : Nat) (x : Reg) (s : State) (b : Bool) :
    waitKey d x (s.setRedraw b) = mapNext (fun t => t.setRedraw b) (waitKey d x s) := by
  simp only [waitKey, State.setRedraw_keys]
  split <;> rfl

/-- To raise the flag before an instruction is to raise it afterwards. This is both halves of R186 at once: no
instruction reads the flag, or its outcome would differ elsewhere, and none lowers it. -/
theorem exec_setRedraw_true (i : Instr) (s : State) :
    exec i (s.setRedraw true) = mapNext (fun t => t.setRedraw true) (exec i s) := by
  cases i with
  | ret => exact execRet_setRedraw s true
  | call nnn => exact execCall_setRedraw nnn s true
  | ldVxK x => exact waitKey_setRedraw _ x s true
  | drw x y n | ldB x | storeRegs x =>
    exact State.withData_comm (f := fun t => t.setRedraw true) rfl rfl (fun _ => rfl) _ _ rfl
  | loadRegs x =>
    have hload := State.writeRegs_comm (f := fun t => t.setRedraw true) (fun _ _ _ => rfl) (s.dataBytes (x.val + 1)) s 0
    exact State.withData_comm (f := fun t => t.setRedraw true) rfl rfl (fun _ => rfl) _ _
      (congrArg (fun t => Host.Outcome.next t.advance) hload)
  | cls | sys nnn | jp nnn | seImm x kk | sneImm x kk | seReg x y | ldImm x kk | addImm x kk | ldReg x y | orReg x y
  | andReg x y | xorReg x y | addReg x y | subReg x y | shr x y | subnReg x y | shl x y | sneReg x y | ldI nnn
  | jpV0 nnn | rnd x kk | skp x | sknp x | ldVxDt x | ldDtVx x | ldStVx x | addI x | ldF x => rfl

/-- A raised flag stays raised: the state already is its own `setRedraw true`. -/
theorem exec_keeps_redraw {i : Instr} {s t : State} (h : exec i s = .next t) (hs : s.redraw = true) :
    t.redraw = true := by
  have e := exec_setRedraw_true i s
  have hself : s.setRedraw true = s := by rw [← hs, State.setRedraw_self]
  rw [hself, h, mapNext_next, Host.Outcome.next.injEq] at e
  rw [e, State.setRedraw_redraw]

/-- Whatever the flag held before, the outcomes agree once it is raised in both. -/
theorem exec_ignores_redraw (i : Instr) (s : State) (b : Bool) :
    mapNext (fun t => t.setRedraw true) (exec i (s.setRedraw b)) = mapNext (fun t => t.setRedraw true) (exec i s) := by
  rw [← exec_setRedraw_true, ← exec_setRedraw_true, State.setRedraw_setRedraw]

theorem execCls_eq (s : State) : execCls s = .next ((s.setFb Framebuffer.blank).setRedraw true).advance := rfl

/-- A DRW that records no fault has drawn, and every draw raises the flag. -/
theorem execDrw_sets_redraw {x y : Reg} {n : Nibble} {s t : State} (h : execDrw x y n s = .next t)
    (hf : t.fault = none) : t.redraw = true := by
  unfold execDrw at h
  obtain ⟨-, e⟩ | ⟨-, -, e⟩ := s.withData_cases (.drw x y n) n.toNat _
  · rw [e] at h
    cases h
    rfl
  · rw [e] at h
    cases h
    cases hf

theorem exec_display_sets_redraw {i : Instr} {s t : State} (hi : i = .cls ∨ ∃ x y n, i = .drw x y n)
    (h : exec i s = .next t) (hf : t.fault = none) : t.redraw = true := by
  obtain rfl | ⟨x, y, n, rfl⟩ := hi
  · cases h
    rfl
  · exact execDrw_sets_redraw h hf

/-! ### The redraw flag and the six operations -/

theorem step_keeps_redraw {s t : State} (h : step s = .next t) (hs : s.redraw = true) : t.redraw = true := by
  obtain ⟨-, rfl⟩ | ⟨-, -, rfl⟩ | ⟨_, _, -, -, -, rfl⟩ | ⟨_, _, -, -, -, he⟩ := step_cases h
  · exact hs
  · exact hs
  · exact hs
  · exact exec_keeps_redraw he hs

@[simp] theorem loadProgram_redraw (bytes : List Byte) (s : State) : (loadProgram bytes s).redraw = s.redraw := by
  unfold loadProgram
  split
  · rfl
  · split <;> rfl

@[simp] theorem tick_redraw (s : State) : (tick s).1.redraw = s.redraw := by
  unfold tick
  split <;> rfl

@[simp] theorem keyUpdate_redraw (pressed : List HostKey) (s : State) : (keyUpdate pressed s).redraw = s.redraw := by
  unfold keyUpdate keyUpdateUnder
  split <;> rfl

/-- `Reset` raises the flag (the spec's decision D15). -/
@[simp] theorem resetUnder_redraw (font : Font) (s : State) : (resetUnder font s).redraw = true := rfl

theorem performUnder_keeps_redraw {font : Font} {o : Op} {s t : State} (ho : o ≠ .redrawAck)
    (h : performUnder font o s = .next t) (hs : s.redraw = true) : t.redraw = true := by
  cases o with
  | redrawAck => exact absurd rfl ho
  | step => exact step_keeps_redraw h hs
  | reset => cases h; exact resetUnder_redraw font s
  | loadProgram bytes | tick | keyUpdate pressed => cases h; simpa using hs

theorem redrawAck_halted {s : State} (hf : s.fault ≠ none) : redrawAck s = s :=
  if_pos (Option.isSome_iff_ne_none.2 hf)

theorem redrawAck_running {s : State} (hf : s.fault = none) : redrawAck s = s.setRedraw false := by
  simp [redrawAck, hf]

theorem Touches.only_setRedraw (s : State) (b : Bool) : ({ redraw := true } : Touches).only s (s.setRedraw b) := by
  simp [Touches.only]

theorem Touches.only_display_advance (s : State) (fb : Framebuffer) (b : Bool) :
    ({ fb := true, redraw := true } : Touches).only s ((s.setFb fb).setRedraw b).advance := by
  simp [Touches.only]

/-! ### The obligations (42_display.md) -/

/-- Settles O55: `exec_setRedraw_true` gives what the instructions keep and ignore, and one lemma per operation gives
the rest. -/
theorem onlyRedrawAckClearsRedraw : Obligations.OnlyRedrawAckClearsRedraw := by
  refine ⟨fun s => ⟨_, rfl, redrawAck_halted, fun hf => ?_⟩, fun _ _ _ h => exec_keeps_redraw h,
    fun _ _ _ _ ho h => performUnder_keeps_redraw ho h, fun _ _ _ hi h => exec_display_sets_redraw hi h,
    exec_ignores_redraw⟩
  rw [redrawAck_running hf]
  exact ⟨rfl, rfl, Touches.only_setRedraw s false⟩

/-- Settles O38: every pixel of the blank framebuffer is off, and CLS touches the display alone. -/
theorem clsClearsTheDisplay : Obligations.ClsClearsTheDisplay :=
  ⟨rfl, fun s => ⟨_, execCls_eq s, Framebuffer.pixel_blank, rfl, rfl, Touches.only_display_advance s _ true⟩⟩

end Sys2Proof.Machine
end

section
/-! PROOFS. The held keys after KeyUpdate (O54). -/

namespace Sys2Proof.Machine

/-! ### KeyUpdate by the fault register (43_keyboard.md R201) -/

theorem keyUpdateUnder_halted (keymap : HostKey → Option Key) (pressed : List HostKey) {s : State}
    (hf : s.fault ≠ none) : keyUpdateUnder keymap pressed s = s :=
  if_pos (Option.isSome_iff_ne_none.2 hf)

theorem keyUpdateUnder_running (keymap : HostKey → Option Key) (pressed : List HostKey) {s : State}
    (hf : s.fault = none) :
    keyUpdateUnder keymap pressed s = s.setKeys (KeySet.ofKeys (pressed.filterMap keymap)) := by
  simp [keyUpdateUnder, hf]

/-- The set built from the mapped host keys holds their images and no other key. -/
theorem KeySet.holds_ofKeys_filterMap (keymap : HostKey → Option Key) (pressed : List HostKey) (k : Key) :
    KeySet.holds (KeySet.ofKeys (pressed.filterMap keymap)) k = true ↔ ∃ h ∈ pressed, keymap h = some k :=
  (KeySet.holds_ofKeys _ k).trans List.mem_filterMap

theorem Touches.only_setKeys (s : State) (ks : KeySet) : ({ keys := true } : Touches).only s (s.setKeys ks) := by
  simp [Touches.only]

/-! ### The obligation (43_keyboard.md) -/

/-- Settles O54: a running block takes `keyUpdateUnder_running`'s one update, whose set is the images under KEYMAP; the
operation performed is the same function at the block's own KEYMAP, by definition. -/
theorem keyUpdateReplacesTheHeldSet : Obligations.KeyUpdateReplacesTheHeldSet := by
  refine ⟨fun keymap pressed s => ⟨keyUpdateUnder_halted keymap pressed, fun hf => ?_⟩, fun _ _ => rfl⟩
  rw [keyUpdateUnder_running keymap pressed hf]
  exact ⟨KeySet.holds_ofKeys_filterMap keymap pressed, rfl, Touches.only_setKeys s _⟩

end Sys2Proof.Machine
end

section
/-! PROOFS. The timers and the buzz bit of a tick (O52) and of a run of ticks (O53). -/

namespace Sys2Proof.Machine

/-! ### One tick by the fault register (60_exceptions.md R261) -/

theorem tick_halted {s : State} (hf : s.fault ≠ none) : tick s = (s, false) :=
  if_pos (Option.isSome_iff_ne_none.2 hf)

theorem tick_running {s : State} (hf : s.fault = none) :
    tick s = ((s.setDT (countDown s.DT)).setST (countDown s.ST), s.ST != 0#8) := by
  simp [tick, hf]

@[simp] theorem tick_fault (s : State) : (tick s).1.fault = s.fault := by
  unfold tick
  split <;> rfl

theorem tick_DT_toNat {s : State} (hf : s.fault = none) : (tick s).1.DT.toNat = s.DT.toNat - 1 := by
  rw [tick_running hf]
  exact countDown_toNat s.DT

theorem tick_ST_toNat {s : State} (hf : s.fault = none) : (tick s).1.ST.toNat = s.ST.toNat - 1 := by
  rw [tick_running hf]
  exact countDown_toNat s.ST

/-- The buzz bit tells whether the sound timer was running before the tick (R262). -/
theorem tick_buzz {s : State} (hf : s.fault = none) : (tick s).2 = decide (0 < s.ST.toNat) := by
  rw [tick_running hf, Bool.eq_iff_iff, bne_iff_ne, decide_eq_true_iff, Nat.pos_iff_ne_zero]
  exact BitVec.toNat_inj.not.symm

theorem tick_buzz_iff {s : State} (hf : s.fault = none) : (tick s).2 = true ↔ s.ST.toNat ≠ 0 := by
  rw [tick_buzz hf, decide_eq_true_iff, Nat.pos_iff_ne_zero]

theorem Touches.only_setTimers (s : State) (d v : Byte) :
    ({ DT := true, ST := true } : Touches).only s ((s.setDT d).setST v) := by
  simp [Touches.only]

/-! ### Many ticks (60_exceptions.md R262) -/

/-- Where nothing but the ticks writes `ST`, the k-th tick finds it `k` lower, clamped at 0. -/
theorem ST_toNat_of_only_ticks_write {before : Nat → State} (hf : ∀ k, (before k).fault = none)
    (hst : ∀ k, (before (k + 1)).ST = (tick (before k)).1.ST) (k : Nat) :
    (before k).ST.toNat = (before 0).ST.toNat - k := by
  induction k with
  | zero => rfl
  | succ k ih => rw [hst, tick_ST_toNat (hf k), ih, Nat.sub_sub]

/-- `n` ticks of a sound timer at `v` buzz while it lasts: one `true` for each of the first `v`, then `false`. -/
def buzzBits (n v : Nat) : List Bool := List.replicate (min n v) true ++ List.replicate (n - v) false

/-- The first bit, and the bits of the ticks that remain once the timer has counted down. -/
theorem buzzBits_succ (n v : Nat) : buzzBits (n + 1) v = decide (0 < v) :: buzzBits n (v - 1) := by
  cases v with
  | zero => simp [buzzBits, List.replicate_succ]
  | succ v => simp [buzzBits, List.replicate_succ, Nat.add_min_add_right]

theorem ticks_buzz {s : State} (hf : s.fault = none) (n : Nat) : (ticks n s).1 = buzzBits n s.ST.toNat := by
  induction n generalizing s with
  | zero => simp [ticks, buzzBits]
  | succ n ih =>
    calc (ticks (n + 1) s).1
        = (tick s).2 :: (ticks n (tick s).1).1 := rfl
      _ = decide (0 < s.ST.toNat) :: buzzBits n (s.ST.toNat - 1) := by
          rw [tick_buzz hf, ih ((tick_fault s).trans hf), tick_ST_toNat hf]
      _ = buzzBits (n + 1) s.ST.toNat := (buzzBits_succ n _).symm

theorem ticks_ST_toNat {s : State} (hf : s.fault = none) (n : Nat) :
    (ticks n s).2.ST.toNat = s.ST.toNat - n := by
  induction n generalizing s with
  | zero => rfl
  | succ n ih =>
    calc (ticks (n + 1) s).2.ST.toNat
        = (ticks n (tick s).1).2.ST.toNat := rfl
      _ = s.ST.toNat - 1 - n := by rw [ih ((tick_fault s).trans hf), tick_ST_toNat hf]
      _ = s.ST.toNat - (n + 1) := by omega

/-! ### The obligations (60_exceptions.md) -/

/-- Settles O53: between other operations `ST_toNat_of_only_ticks_write` says what each tick finds in `ST`, and
consecutive ticks go by induction on their number. -/
theorem buzzLastsExactlySTTicks : Obligations.BuzzLastsExactlySTTicks := by
  refine ⟨fun before hf hst k => ⟨tick_buzz_iff (hf k), ?_⟩, fun s n hf => ⟨ticks_buzz hf n, ticks_ST_toNat hf n⟩⟩
  rw [tick_buzz_iff (hf k), ST_toNat_of_only_ticks_write hf hst k, Nat.sub_ne_zero_iff_lt]

/-- Settles O52: a halted tick is `tick_halted`; a running one counts both timers down by `countDown_toNat`. -/
theorem tickCountsTheTimersDown : Obligations.TickCountsTheTimersDown := by
  refine fun s => ⟨tick_halted, fun hf => ⟨tick_DT_toNat hf, tick_ST_toNat hf, tick_buzz_iff hf, ?_⟩⟩
  rw [tick_running hf]
  exact ⟨rfl, Touches.only_setTimers s _ _⟩

end Sys2Proof.Machine
end

section
/-! PROOFS. The decoder and the encoder are inverse to each other (O2, O3), the invalid opcodes (O5), and the printed
words (O1). -/

namespace Sys2Proof

/-! ### Decoding an encoding (30_encoding.md R91, R92) -/

/-- A legal SYS word is not one of the two words that come before SYS in the opcode map (R116). -/
theorem decodeWord_encode_sys {nnn : Addr12} (h : sysAddrLegal nnn = true) :
    decodeWord (encode (.sys nnn)) = .ok (.sys nnn) := by
  have hcls : wordNNN 0x0#4 nnn ≠ 0x00E0#16 := by
    intro e
    have hn : nnn = 0x0E0#12 := by rw [← nnnField_wordNNN 0x0#4 nnn, e]; rfl
    subst hn
    exact absurd h (by decide)
  have hret : wordNNN 0x0#4 nnn ≠ 0x00EE#16 := by
    intro e
    have hn : nnn = 0x0EE#12 := by rw [← nnnField_wordNNN 0x0#4 nnn, e]; rfl
    subst hn
    exact absurd h (by decide)
  simp [encode, decodeWord, hcls, hret]

theorem decodeWord_encode (i : Instr) (h : i.wellFormed = true) : decodeWord (encode i) = .ok i := by
  cases i with
  | cls | ret => rfl
  | sys nnn => exact decodeWord_encode_sys h
  | jp nnn | call nnn | ldI nnn | jpV0 nnn => simp [encode, decodeWord]
  | seImm x kk | sneImm x kk | ldImm x kk | addImm x kk | rnd x kk => simp [encode, decodeWord]
  | seReg x y | sneReg x y => simp [encode, decodeWord]
  | drw x y n => simp [encode, decodeWord]
  | ldReg x y | orReg x y | andReg x y | xorReg x y | addReg x y | subReg x y | shr x y | subnReg x y | shl x y =>
    simp [encode, decodeWord, decodeAlu]
  | skp x | sknp x => simp [encode, decodeWord, decodeKey]
  | ldVxDt x | ldVxK x | ldDtVx x | ldStVx x | addI x | ldF x | ldB x | storeRegs x | loadRegs x =>
    simp [encode, decodeWord, decodeMisc]

/-- Settles O2: the word by `decodeWord_encode`, one format at a time, and the bytes because they join to that word. -/
theorem decodeOfEncodeIsTheInstruction : Obligations.DecodeOfEncodeIsTheInstruction := by
  intro i h
  have hw : decodeWord (encode i) = .ok i := decodeWord_encode i h
  refine ⟨hw, fun rest => decodeBytes_two _ _ rest i ?_⟩
  rw [joinBytes_bytes, hw]

/-! ### Encoding a decoded word (30_encoding.md R91, R92)

A word whose major nibble (and minor nibble or low byte) has a known value, built again from its other fields. -/

section
variable {w : Word} {k : Nat} (hop : (opField w).toNat = k)
include hop

theorem opField_eq_ofNat : opField w = BitVec.ofNat 4 k := by
  rw [← hop, BitVec.ofNat_toNat, BitVec.setWidth_eq]

theorem wordNNN_fields : wordNNN (BitVec.ofNat 4 k) (nnnField w) = w := by
  rw [← opField_eq_ofNat hop, ← word_eq_nnn]

theorem wordXKK_fields : wordXKK (BitVec.ofNat 4 k) (xField w) (kkField w) = w := by
  rw [← opField_eq_ofNat hop, ← word_eq_xkk]

theorem wordXYN_fields : wordXYN (BitVec.ofNat 4 k) (xField w) (yField w) (nField w) = w := by
  rw [← opField_eq_ofNat hop, ← word_eq_xyn]

theorem wordX_fields {m : Nat} (hkk : (kkField w).toNat = m) :
    wordXKK (BitVec.ofNat 4 k) (xField w) (BitVec.ofNat 8 m) = w := by
  rw [← hkk, BitVec.ofNat_toNat, BitVec.setWidth_eq, wordXKK_fields hop]

theorem wordXY_fields {m : Nat} (hn : (nField w).toNat = m) :
    wordXYN (BitVec.ofNat 4 k) (xField w) (yField w) (BitVec.ofNat 4 m) = w := by
  rw [← hn, BitVec.ofNat_toNat, BitVec.setWidth_eq, wordXYN_fields hop]

end

theorem encode_of_decodeAlu {w : Word} {i : Instr} (hop : (opField w).toNat = 8) (h : decodeAlu w = .ok i) :
    i.wellFormed = true ∧ encode i = w := by
  unfold decodeAlu at h
  split at h
  case h_10 => cases h
  all_goals
    cases h
    exact ⟨rfl, wordXY_fields hop ‹_›⟩

theorem encode_of_decodeKey {w : Word} {i : Instr} (hop : (opField w).toNat = 14) (h : decodeKey w = .ok i) :
    i.wellFormed = true ∧ encode i = w := by
  unfold decodeKey at h
  split at h
  case h_3 => cases h
  all_goals
    cases h
    exact ⟨rfl, wordX_fields hop ‹_›⟩

theorem encode_of_decodeMisc {w : Word} {i : Instr} (hop : (opField w).toNat = 15) (h : decodeMisc w = .ok i) :
    i.wellFormed = true ∧ encode i = w := by
  unfold decodeMisc at h
  split at h
  case h_10 => cases h
  all_goals
    cases h
    exact ⟨rfl, wordX_fields hop ‹_›⟩

/-- What the decoder reads as SYS, after CLS and RET (R101), is a legal SYS word. -/
theorem sysAddrLegal_of_ne {w : Word} (hop : (opField w).toNat = 0) (hcls : w ≠ 0x00E0#16) (hret : w ≠ 0x00EE#16) :
    sysAddrLegal (nnnField w) = true := by
  have hword : wordNNN 0x0#4 (nnnField w) = w := wordNNN_fields hop
  have h1 : nnnField w ≠ 0x0E0#12 := fun e => hcls (by rw [← hword, e]; rfl)
  have h2 : nnnField w ≠ 0x0EE#12 := fun e => hret (by rw [← hword, e]; rfl)
  simp [sysAddrLegal, h1, h2]

/-- The major nibble F is what the decoder's last arm is left with. -/
theorem opField_toNat_of_last {w : Word} (h : ∀ k, k < 15 → (opField w).toNat ≠ k) : (opField w).toNat = 15 := by
  have hlt := (opField w).isLt
  by_contra hne
  exact h _ (by omega) rfl

theorem encode_of_decodeWord {w : Word} {i : Instr} (h : decodeWord w = .ok i) :
    i.wellFormed = true ∧ encode i = w := by
  unfold decodeWord at h
  split at h
  case h_1 hop =>
    split at h
    · cases h
      exact ⟨rfl, Eq.symm ‹_›⟩
    · split at h
      · cases h
        exact ⟨rfl, Eq.symm ‹_›⟩
      · cases h
        exact ⟨sysAddrLegal_of_ne hop ‹_› ‹_›, wordNNN_fields hop⟩
  case h_6 hop | h_10 hop =>
    split at h
    · rename_i hn
      cases h
      exact ⟨rfl, wordXY_fields hop (congrArg BitVec.toNat hn)⟩
    · cases h
  case h_9 hop => exact encode_of_decodeAlu hop h
  case h_15 hop => exact encode_of_decodeKey hop h
  case h_16 =>
    have hop : (opField w).toNat = 15 := opField_toNat_of_last fun k hk => by interval_cases k <;> assumption
    exact encode_of_decodeMisc hop h
  case h_2 hop | h_3 hop | h_11 hop | h_12 hop => cases h; exact ⟨rfl, wordNNN_fields hop⟩
  case h_4 hop | h_5 hop | h_7 hop | h_8 hop | h_13 hop => cases h; exact ⟨rfl, wordXKK_fields hop⟩
  case h_14 hop => cases h; exact ⟨rfl, wordXYN_fields hop⟩

/-- Settles O3: `encode_of_decodeWord`, one arm of the decoder at a time: each takes every field of the word. -/
theorem encodeOfDecodeIsTheWord : Obligations.EncodeOfDecodeIsTheWord :=
  fun _ _ h => encode_of_decodeWord h

/-! ### The invalid opcodes (30_encoding.md R115) -/

/-- The minor nibbles that no row 8xyN has. -/
theorem minor_invalid_iff : ∀ n : Nibble, n.toNat ∉ [0x0, 0x1, 0x2, 0x3, 0x4, 0x5, 0x6, 0x7, 0xE] ↔
    n ∈ [0x8#4, 0x9#4, 0xA#4, 0xB#4, 0xC#4, 0xD#4, 0xF#4] := by
  decide

theorem decodeAlu_invalid_iff (w : Word) : decodeAlu w = .error (.invalidOpcode w) ↔
    nField w ∈ [0x8#4, 0x9#4, 0xA#4, 0xB#4, 0xC#4, 0xD#4, 0xF#4] := by
  rw [← minor_invalid_iff, decodeAlu]
  generalize (nField w).toNat = n
  split
  case h_10 => simp_all
  all_goals simp

theorem decodeKey_invalid_iff (w : Word) : decodeKey w = .error (.invalidOpcode w) ↔
    kkField w ∉ [0x9E#8, 0xA1#8] := by
  simp only [List.mem_cons, List.not_mem_nil, or_false, ← BitVec.toNat_inj]
  rw [decodeKey]
  generalize (kkField w).toNat = n
  split
  case h_3 => simp_all
  all_goals simp

theorem decodeMisc_invalid_iff (w : Word) : decodeMisc w = .error (.invalidOpcode w) ↔
    kkField w ∉ [0x07#8, 0x0A#8, 0x15#8, 0x18#8, 0x1E#8, 0x29#8, 0x33#8, 0x55#8, 0x65#8] := by
  simp only [List.mem_cons, List.not_mem_nil, or_false, ← BitVec.toNat_inj]
  rw [decodeMisc]
  generalize (kkField w).toNat = n
  split
  case h_10 => simp_all
  all_goals simp

/-- Settles O5: by the major nibble; under 8, E and F the second decoder's own lemma gives the class. -/
theorem invalidOpcodesAreTheFiveClasses : Obligations.InvalidOpcodesAreTheFiveClasses := by
  intro w
  unfold decodeWord
  split
  case h_9 hop => simp [opField_eq_ofNat hop, decodeAlu_invalid_iff]
  case h_15 hop => simp [opField_eq_ofNat hop, decodeKey_invalid_iff]
  case h_16 =>
    have hop : (opField w).toNat = 15 := opField_toNat_of_last fun k hk => by interval_cases k <;> assumption
    simp [opField_eq_ofNat hop, decodeMisc_invalid_iff]
  case h_1 hop =>
    split
    · simp [opField_eq_ofNat hop]
    · split <;> simp [opField_eq_ofNat hop]
  case h_6 hop | h_10 hop => by_cases hn : nField w = 0#4 <;> simp [opField_eq_ofNat hop, hn]
  all_goals rename_i hop; simp [opField_eq_ofNat hop]

/-- Settles O1: the words are concrete, and the decoder evaluates on them. -/
theorem printedWordsDecode : Obligations.PrintedWordsDecode := by
  unfold Obligations.PrintedWordsDecode
  decide

end Sys2Proof
end

section
/-! PROOFS. The frame of every instruction (O17), and that every instruction answers a next state while `sp` is in its
range. -/

namespace Sys2Proof.Machine

/-! ### CALL and RET by the stack pointer (40_flow.md R131, R133) -/

theorem execRet_underflow {s : State} (h : s.sp.toNat = 0) :
    execRet s = .next (s.setFault (some ⟨.stackUnderflow, some (encode .ret), some s.pc, none⟩)) :=
  if_pos (BitVec.eq_of_toNat_eq h)

theorem execRet_pops {s : State} (h0 : 0 < s.sp.toNat) (h : s.sp.toNat ≤ 16) :
    execRet s = .next ((s.setSp (s.sp - 1)).setPc s.stack[s.sp.toNat - 1]) := by
  have hne : s.sp ≠ 0#8 := fun e => absurd h0 (by simp [e])
  rw [execRet, if_neg hne, s.pop_some h0 h]

theorem execCall_overflow {s : State} (nnn : Addr12) (h : s.sp.toNat = 16) :
    execCall nnn s = .next (s.setFault (some ⟨.stackOverflow, some (encode (.call nnn)), some s.pc, none⟩)) :=
  if_pos (BitVec.eq_of_toNat_eq h)

theorem execCall_pushes {s : State} (nnn : Addr12) (h : s.sp.toNat < 16) :
    execCall nnn s =
      .next (((s.setStack (s.stack.set s.sp.toNat (s.pc + 2))).setSp (s.sp + 1)).setPc (addrWord nnn)) := by
  have hne : s.sp ≠ 16#8 := fun e => absurd h (by simp [e])
  rw [execCall, if_neg hne, s.push_some (s.pc + 2) h]

/-! ### LD Vx,K by the held keys (43_keyboard.md R205) -/

theorem waitKey_waits {s : State} (d : Nat) (x : Reg) (h : KeySet.held s.keys = []) : waitKey d x s = .next s := by
  rw [waitKey, h]

theorem waitKey_loads {s : State} {k : Key} {rest : List Key} (d : Nat) (x : Reg) (h : KeySet.held s.keys = k :: rest) :
    waitKey d x s = .next ((s.setDraws (s.draws + 1)).writeV x (keyByte (pickKey d k rest))).advance := by
  rw [waitKey, h]

/-- Everything an LD Vx,K can do. -/
theorem waitKey_cases (d : Nat) (x : Reg) (s : State) :
    (KeySet.held s.keys = [] ∧ waitKey d x s = .next s) ∨
    (∃ k rest, KeySet.held s.keys = k :: rest ∧
      waitKey d x s = .next ((s.setDraws (s.draws + 1)).writeV x (keyByte (pickKey d k rest))).advance) := by
  cases h : KeySet.held s.keys with
  | nil => exact .inl ⟨rfl, waitKey_waits d x h⟩
  | cons k rest => exact .inr ⟨k, rest, rfl, waitKey_loads d x h⟩

/-! ### Every instruction answers -/

theorem State.withData_answers {s u : State} (i : Instr) (m : Nat) : ∃ t, s.withData i m (.next u) = .next t := by
  obtain ⟨-, e⟩ | ⟨-, -, e⟩ := s.withData_cases i m (.next u)
  · exact ⟨_, e⟩
  · exact ⟨_, e⟩

/-- With `sp` in its range an instruction answers a next state, whatever its draws: the model's own stop is out of
reach. -/
theorem execWith_answers {s : State} (hsp : s.sp.toNat ≤ 16) (rnd : Byte) (pick : Nat) (i : Instr) :
    ∃ t, execWith rnd pick i s = .next t := by
  cases i with
  | ret =>
    obtain h0 | hpos := Nat.eq_zero_or_pos s.sp.toNat
    · exact ⟨_, execRet_underflow h0⟩
    · exact ⟨_, execRet_pops hpos hsp⟩
  | call nnn =>
    obtain hlt | h16 := Nat.lt_or_eq_of_le hsp
    · exact ⟨_, execCall_pushes nnn hlt⟩
    · exact ⟨_, execCall_overflow nnn h16⟩
  | ldVxK x =>
    obtain ⟨-, e⟩ | ⟨_, _, -, e⟩ := waitKey_cases pick x s
    · exact ⟨_, e⟩
    · exact ⟨_, e⟩
  | drw x y n | ldB x | storeRegs x | loadRegs x => exact State.withData_answers _ _
  | cls | sys nnn | jp nnn | seImm x kk | sneImm x kk | seReg x y | ldImm x kk | addImm x kk | ldReg x y | orReg x y
  | andReg x y | xorReg x y | addReg x y | subReg x y | shr x y | subnReg x y | shl x y | sneReg x y | ldI nnn
  | jpV0 nnn | rnd x kk | skp x | sknp x | ldVxDt x | ldDtVx x | ldStVx x | addI x | ldF x => exact ⟨_, rfl⟩

theorem exec_answers {s : State} (hsp : s.sp.toNat ≤ 16) (i : Instr) : ∃ t, exec i s = .next t := by
  rw [exec_eq_execWith]
  exact execWith_answers hsp _ _ i

/-! ### What the shared operations touch -/

theorem Touches.only_refl (w : Touches) (s : State) : w.only s s := by simp [Touches.only]

/-- A frame says nothing of `pc`. -/
theorem Touches.only_setPc {w : Touches} {s t : State} (v : Word) (h : w.only s t) : w.only s (t.setPc v) := h

theorem Touches.only_setFault {w : Touches} (hw : w.fault = true) (s : State) (r : Option FaultRecord) :
    w.only s (s.setFault r) := by
  simp [Touches.only, hw]

/-- What holds without a fault holds of a frame that also allows one. -/
theorem Touches.only.orFault {w : Touches} {s t : State} (h : w.only s t) :
    ({ w with fault := true } : Touches).only s t := by
  obtain ⟨hV, hI, hsp, hstack, hDT, hST, hmem, hfb, hredraw, hkeys, -, hdraws⟩ := h
  exact ⟨hV, hI, hsp, hstack, hDT, hST, hmem, hfb, hredraw, hkeys, nofun, hdraws⟩

theorem Memory.read_writeBytes_of_not_mem {n : Nat} {bs : List Byte} (hn : bs.length = n) (m : Memory) {a b : Nat}
    (h : b ∉ (List.range n).map (a + ·)) : (m.writeBytes a bs).read b = m.read b := by
  refine Memory.read_writeBytes_other bs m a b ?_
  by_contra hin
  exact h (List.mem_map.2 ⟨b - a, List.mem_range.2 (by omega), by omega⟩)

/-- A block write touches its own addresses. -/
theorem Touches.only_writeBytes {n : Nat} {bs : List Byte} (hn : bs.length = n) (s : State) (a : Nat) :
    ({ mem := (List.range n).map (a + ·) } : Touches).only s (s.setMem (s.mem.writeBytes a bs)) := by
  have hread : ∀ b, b ∉ (List.range n).map (a + ·) → (s.mem.writeBytes a bs).read b = s.mem.read b :=
    fun _ h => Memory.read_writeBytes_of_not_mem hn s.mem h
  refine ⟨fun _ _ => rfl, fun _ => rfl, fun _ => rfl, fun _ => rfl, fun _ => rfl, fun _ => rfl, hread, ?_⟩
  simp

theorem Touches.only_storeData_advance {n : Nat} {bs : List Byte} (hn : bs.length = n) (s : State) :
    ({ mem := (List.range n).map (s.dataBase + ·) } : Touches).only s (s.storeData bs).advance :=
  only_setPc _ (only_writeBytes hn s s.dataBase)

/-- A load of registers from V0 up touches those up to the last one. -/
theorem Touches.only_writeRegs {bs : List Byte} (x : Reg) (hn : bs.length = x.val + 1) (s : State) :
    ({ regs := (List.finRange 16).filter (· ≤ x) } : Touches).only s (s.writeRegs 0 bs) := by
  refine ⟨fun r hr => State.writeRegs_other bs s 0 r (.inr ?_), by simp⟩
  have hgt : x < r := by simpa using hr
  have hlt : x.val < r.val := hgt
  omega

theorem Touches.only_writeRegs_advance {bs : List Byte} (x : Reg) (hn : bs.length = x.val + 1) (s : State) :
    ({ regs := (List.finRange 16).filter (· ≤ x) } : Touches).only s (s.writeRegs 0 bs).advance :=
  only_setPc _ (only_writeRegs x hn s)

theorem Touches.only_sprite (s : State) (fb : Framebuffer) (b c : Bool) :
    ({ regs := [VF], fb := true, redraw := true } : Touches).only s (((s.setFb fb).setRedraw b).writeFlag c).advance :=
  ⟨fun _ hr => State.readV_writeV_of_ne _ _ (List.ne_of_not_mem_cons hr), by simp⟩

theorem Touches.only_drawn (s : State) (n : Nat) (x : Reg) (v : Byte) :
    ({ regs := [x], draws := true } : Touches).only s ((s.setDraws n).writeV x v).advance :=
  ⟨fun _ hr => State.readV_writeV_of_ne _ _ (List.ne_of_not_mem_cons hr), by simp⟩

theorem bcdDigits_length (v : Byte) : (bcdDigits v).length = 3 := rfl

theorem State.dataBytes_length (s : State) (m : Nat) : (s.dataBytes m).length = m := Memory.readBytes_length _ _ _

/-! ### The frame of each instruction -/

/-- Every next state of the outcome is reached within the frame. -/
def Touches.Frames (w : Touches) (s : State) (o : Result) : Prop := ∀ t, o = .next t → w.only s t

theorem Touches.frames_next {w : Touches} {s u : State} (h : w.only s u) : w.Frames s (.next u) := by
  rintro t ⟨⟩
  exact h

theorem Touches.frames_withData {w : Touches} {s u : State} (i : Instr) (m : Nat) (h : w.only s u) :
    ({ w with fault := true } : Touches).Frames s (s.withData i m (.next u)) := by
  obtain ⟨-, e⟩ | ⟨-, -, e⟩ := s.withData_cases i m (.next u)
  · rw [e]
    exact frames_next h.orFault
  · rw [e]
    exact frames_next (only_setFault rfl s _)

theorem waitKey_frames (d : Nat) (x : Reg) (s : State) :
    ({ regs := [x], draws := true } : Touches).Frames s (waitKey d x s) := by
  obtain ⟨-, e⟩ | ⟨k, rest, -, e⟩ := waitKey_cases d x s
  · rw [e]
    exact Touches.frames_next (Touches.only_refl _ s)
  · rw [e]
    exact Touches.frames_next (Touches.only_drawn s _ x _)

theorem execRet_frames (s : State) : ({ sp := true, fault := true } : Touches).Frames s (execRet s) := by
  intro t h
  obtain ⟨-, rfl⟩ | ⟨-, -, rfl⟩ := execRet_cases h
  · exact Touches.only_setFault rfl s _
  · simp [Touches.only]

theorem execCall_frames (nnn : Addr12) (s : State) :
    ({ sp := true, stack := true, fault := true } : Touches).Frames s (execCall nnn s) := by
  intro t h
  obtain ⟨-, rfl⟩ | ⟨-, rfl⟩ := execCall_cases h
  · exact Touches.only_setFault rfl s _
  · simp [Touches.only]

/-- Every instruction stays within its frame. -/
theorem exec_frames (i : Instr) (s : State) : (touchesOf i s).Frames s (exec i s) := by
  cases i with
  | ret => exact execRet_frames s
  | call nnn => exact execCall_frames nnn s
  | sys nnn => exact Touches.frames_next (Touches.only_setFault rfl s _)
  | ldVxK x => exact waitKey_frames _ x s
  | drw x y n => exact Touches.frames_withData _ _ (Touches.only_sprite s _ _ _)
  | ldB x => exact Touches.frames_withData _ _ (Touches.only_storeData_advance (bcdDigits_length _) s)
  | storeRegs x =>  exact Touches.frames_withData _ _ (Touches.only_storeData_advance (s.regsUpTo_length x) s)
  | loadRegs x =>  exact Touches.frames_withData _ _ (Touches.only_writeRegs_advance x (s.dataBytes_length _) s)
  | jp nnn | jpV0 nnn | seImm x kk | sneImm x kk | seReg x y | sneReg x y | skp x | sknp x =>
    exact Touches.frames_next (Touches.only_refl _ s)
  | ldImm x kk | addImm x kk | ldReg x y | orReg x y | andReg x y | xorReg x y | ldVxDt x =>
    exact Touches.frames_next (Touches.only_writeV_advance s x _)
  | addReg x y | subReg x y | shr x y | subnReg x y | shl x y =>
    exact Touches.frames_next (Touches.only_writeResultFlag_advance s x _ _)
  | rnd x kk => exact Touches.frames_next (Touches.only_drawn s _ x _)
  | cls => exact Touches.frames_next (Touches.only_display_advance s _ _)
  | ldDtVx x | ldStVx x | ldI nnn | addI x | ldF x => exact Touches.frames_next (by simp [touchesOf, Touches.only])

/-- Settles O17: `exec_frames`, which goes through the instructions by the shared update each one ends with. -/
theorem frameOfEveryInstruction : Obligations.FrameOfEveryInstruction :=
  fun i s t h => exec_frames i s t h

end Sys2Proof.Machine
end

section
/-! PROOFS. The step cycle on a decoded, an unmatched and a SYS word (O6, O8), the halted block (O9), the faults of the
instructions (O11, O12) and their precision (O10), and the load that is too long (O57). -/

namespace Sys2Proof.Machine

/-! ### The fetched word (30_encoding.md R100, R101) -/

theorem decodeWord_of_decodeBytes {hi lo : Byte} {tail rest : List Byte} {i : Instr}
    (h : decodeBytes (hi :: lo :: tail) = .ok (i, rest)) : decodeWord (joinBytes hi lo) = .ok i := by
  simp only [decodeBytes] at h
  split at h
  · cases h
    assumption
  · cases h

/-- Settles O6: the two bytes at `pc` are the fetched word, and what decodes from it is run. -/
theorem stepRunsTheDecodedInstruction : Obligations.StepRunsTheDecodedInstruction := by
  intro s i rest hf hpc h
  have ho : s.fetchOpcode = some (joinBytes (s.mem.read s.pc.toNat) (s.mem.read (s.pc.toNat + 1))) :=
    (s.fetchOpcode_some _).2 ⟨by omega, rfl⟩
  exact step_runs s _ i hf ho (decodeWord_of_decodeBytes h)

/-- A word that no row admits decodes to an error, since the decoder answers the first row that admits a word. -/
theorem decodeWord_unmatched {w : Word} (h : ∀ r ∈ opcodeRows, r.admits w = false) : ∃ e, decodeWord w = .error e := by
  have hnone : mnemonicOf (decodeWord w) = none := by
    rw [decodeWord_mnemonic, firstMnemonic, List.find?_eq_none.2 (by simpa using h)]
    rfl
  cases hd : decodeWord w with
  | ok i => simp [hd, mnemonicOf] at hnone
  | error e => exact ⟨e, rfl⟩

theorem decodeWord_sys {w : Word} (hop : opField w = 0x0#4) (hcls : w ≠ 0x00E0#16) (hret : w ≠ 0x00EE#16) :
    decodeWord w = .ok (.sys (nnnField w)) := by
  rw [decodeWord, hop]
  simp [hcls, hret]

/-- Settles O8: an unmatched word fails to decode; a SYS word decodes to SYS, whose own opcode is that word. -/
theorem unmatchedOpcodesAndSysRaiseInvalidOpcode : Obligations.UnmatchedOpcodesAndSysRaiseInvalidOpcode := by
  rintro s w hf ho (hrows | ⟨hop, hcls, hret⟩)
  · obtain ⟨e, he⟩ := decodeWord_unmatched hrows
    exact step_invalid s w e hf ho he
  · have hword : encode (.sys (nnnField w)) = w := wordNNN_fields (congrArg BitVec.toNat hop)
    have hrun : step s = exec (.sys (nnnField w)) s := step_runs s w _ hf ho (decodeWord_sys hop hcls hret)
    have hraise : exec (.sys (nnnField w)) s =
        .next (s.setFault (some ⟨.invalidOpcode, some (encode (.sys (nnnField w))), some s.pc, none⟩)) := rfl
    rw [hrun, hraise, hword]

/-! ### The load by the fault register and the bound (60_exceptions.md R258) -/

theorem loadProgram_halted {s : State} (bytes : List Byte) (hf : s.fault ≠ none) : loadProgram bytes s = s :=
  if_pos (Option.isSome_iff_ne_none.2 hf)

theorem loadProgram_oversized {s : State} {bytes : List Byte} (hf : s.fault = none) (h : bytes.length > maxRom) :
    loadProgram bytes s = s.setFault (some ⟨.loadError, none, none, some bytes.length⟩) := by
  simp [loadProgram, hf, h]

theorem loadProgram_fits {s : State} {bytes : List Byte} (hf : s.fault = none) (h : bytes.length ≤ maxRom) :
    loadProgram bytes s = s.setMem (s.mem.writeBytes progBase bytes) := by
  simp [loadProgram, hf, Nat.not_lt.2 h]

/-- Settles O57: the second branch of a load. -/
theorem oversizedImageRaisesLoadError : Obligations.OversizedImageRaisesLoadError :=
  fun _ _ hf h => congrArg Host.Outcome.next (loadProgram_oversized hf h)

/-! ### The halted block (60_exceptions.md R257) -/

/-- Settles O9: each operation but Reset by its lemma about a halted block; Reset does not look at the state. -/
theorem haltedBlockIsFrozenUntilReset : Obligations.HaltedBlockIsFrozenUntilReset := by
  intro font s o hf
  refine ⟨fun ho => ?_, congrArg Prod.snd (tick_halted hf), _, rfl, rfl⟩
  cases o with
  | reset => exact absurd rfl ho
  | loadProgram bytes => exact congrArg Host.Outcome.next (loadProgram_halted bytes hf)
  | step => exact step_halted s hf
  | tick => exact congrArg (fun p => Host.Outcome.next p.1) (tick_halted hf)
  | keyUpdate pressed => exact congrArg Host.Outcome.next (keyUpdateUnder_halted Config.keymap pressed hf)
  | redrawAck => exact congrArg Host.Outcome.next (redrawAck_halted hf)

/-! ### The one fault of each instruction (60_exceptions.md R250, R259) -/

/-- The record of a fault of `i` in `s`: its opcode, its address and, where it accesses data, the last data address. -/
def ownRecord (i : Instr) (s : State) (kind : FaultKind) : FaultRecord :=
  ⟨kind, some (encode i), some s.pc, (dataLength i).map fun m => s.dataBase + m - 1⟩

/-- A next state of the outcome has the fault register of `s`, or is `s` with the one fault of `i` recorded. -/
def FaultsAs (i : Instr) (s : State) (o : Result) : Prop :=
  ∀ t, o = .next t →
    t.fault = s.fault ∨ ∃ kind, faultOf i = some kind ∧ t = s.setFault (some (ownRecord i s kind))

theorem faultsAs_next {i : Instr} {s u : State} (h : u.fault = s.fault) : FaultsAs i s (.next u) := by
  rintro t ⟨⟩
  exact .inl h

theorem faultsAs_withData {i : Instr} {m : Nat} {s u : State} (hm : dataLength i = some m)
    (hk : faultOf i = some .memOutOfBounds) (h : u.fault = s.fault) : FaultsAs i s (s.withData i m (.next u)) := by
  obtain ⟨-, e⟩ | ⟨-, -, e⟩ := s.withData_cases i m (.next u)
  · rw [e]
    exact faultsAs_next h
  · rw [e]
    rintro t ⟨⟩
    exact .inr ⟨_, hk, by simp [ownRecord, hm, State.dataBase]⟩

theorem execRet_faultsAs (s : State) : FaultsAs .ret s (execRet s) := by
  intro t h
  obtain ⟨-, rfl⟩ | ⟨-, -, rfl⟩ := execRet_cases h
  · exact .inr ⟨_, rfl, rfl⟩
  · exact .inl rfl

theorem execCall_faultsAs (nnn : Addr12) (s : State) : FaultsAs (.call nnn) s (execCall nnn s) := by
  intro t h
  obtain ⟨-, rfl⟩ | ⟨-, rfl⟩ := execCall_cases h
  · exact .inr ⟨_, rfl, rfl⟩
  · exact .inl rfl

theorem execLdVxK_faultsAs (x : Reg) (s : State) : FaultsAs (.ldVxK x) s (execLdVxK x s) := by
  obtain ⟨-, e⟩ | ⟨_, _, -, e⟩ := waitKey_cases (Config.pick s.draws) x s
  · rw [execLdVxK, e]
    exact faultsAs_next rfl
  · rw [execLdVxK, e]
    exact faultsAs_next rfl

/-- Every instruction records its own fault or none. -/
theorem exec_faultsAs (i : Instr) (s : State) : FaultsAs i s (exec i s) := by
  cases i with
  | ret => exact execRet_faultsAs s
  | call nnn => exact execCall_faultsAs nnn s
  | sys nnn =>
    rintro t ⟨⟩
    exact .inr ⟨_, rfl, rfl⟩
  | ldVxK x => exact execLdVxK_faultsAs x s
  | drw x y n | ldB x | storeRegs x => exact faultsAs_withData rfl rfl rfl
  | loadRegs x => exact faultsAs_withData rfl rfl (State.writeRegs_fault _ s 0)
  | cls | jp nnn | seImm x kk | sneImm x kk | seReg x y | ldImm x kk | addImm x kk | ldReg x y | orReg x y
  | andReg x y | xorReg x y | addReg x y | subReg x y | shr x y | subnReg x y | shl x y | sneReg x y | ldI nnn
  | jpV0 nnn | rnd x kk | skp x | sknp x | ldVxDt x | ldDtVx x | ldStVx x | addI x | ldF x => exact faultsAs_next rfl

/-- From a running block, a recorded fault is the instruction's own, and nothing else has changed. -/
theorem exec_recorded {i : Instr} {s t : State} {r : FaultRecord} (hf : s.fault = none) (h : exec i s = .next t)
    (hr : t.fault = some r) : faultOf i = some r.kind ∧ r = ownRecord i s r.kind ∧ t = s.setFault (some r) := by
  obtain hsame | ⟨kind, hk, rfl⟩ := exec_faultsAs i s t h
  · rw [hsame, hf] at hr
    cases hr
  · cases hr
    exact ⟨hk, rfl, rfl⟩

/-- Settles O11: the fields of `ownRecord`. -/
theorem eachInstructionRaisesOnlyItsFault : Obligations.EachInstructionRaisesOnlyItsFault := by
  intro i s t r hf h hr
  obtain ⟨hk, hown, -⟩ := exec_recorded hf h hr
  refine ⟨hk, by rw [hown, ownRecord], by rw [hown, ownRecord], fun last => ?_⟩
  rw [hown, ownRecord, Option.map_eq_some_iff]
  simp only [eq_comm]

/-- Settles O10: a step's fault comes from the fetch, from the decoder, or from the instruction, whose own opcode is the
fetched word. -/
theorem faultsArePrecise : Obligations.FaultsArePrecise := by
  refine ⟨fun s t r hf h hr => ?_, fun s bytes r hf hr => ?_⟩
  · obtain ⟨hne, -⟩ | ⟨-, -, rfl⟩ | ⟨w, e, -, ho, -, rfl⟩ | ⟨w, i, -, ho, hi, he⟩ := step_cases h
    · exact absurd hf hne
    · cases hr
      exact ⟨rfl, rfl, fun hne => absurd rfl hne⟩
    · cases hr
      exact ⟨rfl, rfl, fun _ => ho.symm⟩
    · obtain ⟨-, hown, ht⟩ := exec_recorded hf he hr
      have hopcode : r.opcode = some (encode i) := by rw [hown, ownRecord]
      exact ⟨ht, by rw [hown, ownRecord], fun _ => by rw [hopcode, (encode_of_decodeWord hi).2, ho]⟩
  · obtain hfit | hlong := le_or_gt bytes.length maxRom
    · rw [loadProgram_fits hf hfit, State.setMem_fault, hf] at hr
      cases hr
    · rw [loadProgram_oversized hf hlong] at hr ⊢
      cases hr
      rfl

/-! ### The data bound (20_memory.md R70) -/

/-- The four instructions that access memory at `I` are a checked access that leaves the fault register. -/
theorem exec_data {i : Instr} {m : Nat} (h : dataLength i = some m) (s : State) :
    ∃ u, exec i s = s.withData i m (.next u) ∧ u.fault = s.fault := by
  cases i with
  | drw x y n | ldB x | storeRegs x =>
    cases h
    exact ⟨_, rfl, rfl⟩
  | loadRegs x =>
    cases h
    exact ⟨_, rfl, State.writeRegs_fault _ s 0⟩
  | _ => cases h

/-- Settles O12: the two ways a checked access can go. -/
theorem dataAccessAboveMemoryFaults : Obligations.DataAccessAboveMemoryFaults := by
  intro i m s hm hf
  obtain ⟨u, hexec, hu⟩ := exec_data hm s
  rw [hexec]
  exact ⟨fun ⟨h1, hover⟩ => s.withData_overrun i m _ h1 hover, fun hfit => ⟨u, s.withData_fits i m _ hfit, hu.trans hf⟩⟩

end Sys2Proof.Machine
end

section
/-! PROOFS. The invariant of the block: after Reset (O13), over a step (O14) and over every schedule (O15). -/

namespace Sys2Proof.Machine

/-! ### Reset (70_reset_and_hazards.md R290) -/

theorem resetUnder_inv (font : Font) (s : State) : (resetUnder font s).Inv := by
  have hsp : (0#8).toNat ≤ 16 := by decide
  have hpc : (0x200#16).toNat ≤ 0x10FE := by decide
  refine ⟨Memory.wf_loadFont font, hsp, hpc, fun k => ?_, fun k hk => ?_, nofun⟩
  · have hzero : (resetUnder font s).stack[k.val] = 0#16 := Vector.getElem_replicate k.isLt
    rw [hzero]
    decide
  · exact absurd hk (Nat.not_lt_zero _)

/-- Settles O13: the reset state is what `Reset` gives under the default FONT. -/
theorem resetMeetsTheInvariant : Obligations.ResetMeetsTheInvariant := by
  have h : (resetOp State.reset).Inv := resetUnder_inv defaultFont State.reset
  rw [resetOp_eq] at h
  exact ⟨h, resetUnder_inv⟩

/-! ### Updates that keep the invariant -/

theorem Block.Inv.mem_wf {b : Block} (h : b.Inv) : b.mem.wf = true := h.1
theorem Block.Inv.sp_le {b : Block} (h : b.Inv) : b.sp.toNat ≤ 16 := h.2.1
theorem Block.Inv.pc_le {b : Block} (h : b.Inv) : b.pc.toNat ≤ 0x10FE := h.2.2.1

/-- A state with the call stack, the fault register and the canonical memory of one that meets the invariant meets it,
with `pc` in its range. -/
theorem State.inv_of_same {s t : State} (hs : s.Inv) (hmem : t.mem.wf = true) (hpc : t.pc.toNat ≤ 0x10FE)
    (hsp : t.sp = s.sp) (hstack : t.stack = s.stack) (hfault : t.fault = s.fault) : t.Inv := by
  obtain ⟨-, hsp', -, hle, hge, hlegal⟩ := hs
  refine ⟨hmem, ?_, hpc, ?_, ?_, ?_⟩
  · rwa [hsp]
  · rwa [hstack]
  · rwa [hsp, hstack]
  · rwa [hfault]

theorem State.inv_setFault {s : State} {r : FaultRecord} (hs : s.Inv) (hr : r.legal = true) :
    (s.setFault (some r)).Inv := by
  obtain ⟨hmem, hsp, hpc, hle, hge, -⟩ := hs
  refine ⟨hmem, hsp, hpc, hle, hge, ?_⟩
  rintro _ ⟨⟩
  exact hr

/-! ### The instructions -/

/-- Every next state of the outcome meets the invariant. -/
def KeepsInv (o : Result) : Prop := ∀ t, o = .next t → t.Inv

theorem keepsInv_next {u : State} (h : u.Inv) : KeepsInv (.next u) := by
  rintro t ⟨⟩
  exact h

section
variable {s : State} (hs : s.Inv)
include hs

theorem State.inv_setPc {v : Word} (hv : v.toNat ≤ 0x10FE) : (s.setPc v).Inv :=
  State.inv_of_same hs hs.mem_wf hv rfl rfl rfl

variable (ha : s.pc.toNat ≤ 0xFFE)
include ha

theorem State.inv_advance {u : State} (hmem : u.mem.wf = true) (hpc : u.pc = s.pc) (hsp : u.sp = s.sp)
    (hstack : u.stack = s.stack) (hfault : u.fault = s.fault) : u.advance.Inv := by
  refine State.inv_of_same hs hmem ?_ hsp hstack hfault
  rw [State.advance_eq, State.setPc_pc, hpc]
  bv_omega

/-- An advance after updates that leave memory, the call stack and the fault register alone. -/
theorem keepsInv_advance {u : State} (hmem : u.mem = s.mem) (hpc : u.pc = s.pc) (hsp : u.sp = s.sp)
    (hstack : u.stack = s.stack) (hfault : u.fault = s.fault) : KeepsInv (.next u.advance) :=
  keepsInv_next (State.inv_advance hs ha (hmem ▸ hs.mem_wf) hpc hsp hstack hfault)

theorem keepsInv_skipIf (c : Bool) : KeepsInv (.next (s.skipIf c)) := by
  refine keepsInv_next (State.inv_setPc hs ?_)
  split <;> bv_omega

/-- A checked access keeps the invariant when the access itself does wherever its bytes lie in memory. -/
theorem keepsInv_withData {u : State} (i : Instr) (m : Nat) (hu : m = 0 ∨ s.I.toNat + m - 1 ≤ 0xFFF → u.Inv) :
    KeepsInv (s.withData i m (.next u)) := by
  obtain ⟨hfit, e⟩ | ⟨-, hover, e⟩ := s.withData_cases i m (.next u)
  · rw [e]
    exact keepsInv_next (hu hfit)
  · rw [e]
    exact keepsInv_next (State.inv_setFault hs (by simp [FaultRecord.legal, ha, hover]))

theorem keepsInv_storeData {bs : List Byte} {m : Nat} (i : Instr) (h1 : 1 ≤ m) (hm : bs.length = m) :
    KeepsInv (s.withData i m (.next (s.storeData bs).advance)) := by
  refine keepsInv_withData hs ha i m fun hfit => ?_
  have hin : s.dataBase + bs.length ≤ memSize := by
    have hI := s.I.isLt
    simp only [State.dataBase, memSize]
    omega
  exact State.inv_advance hs ha (Memory.wf_writeBytes bs s.mem s.dataBase hin hs.mem_wf) rfl rfl rfl rfl

theorem execRet_keepsInv : KeepsInv (execRet s) := by
  intro t h
  obtain ⟨-, rfl⟩ | ⟨hpos, h16, rfl⟩ := execRet_cases h
  · exact State.inv_setFault hs (by simp [FaultRecord.legal, encode, ha])
  · obtain ⟨hmem, -, -, hle, hge, hlegal⟩ := hs
    have hsp : (s.sp - 1).toNat = s.sp.toNat - 1 := s.sp_sub_one hpos
    have hlt : s.sp.toNat - 1 < s.stack.toList.length := by simp; omega
    refine ⟨hmem, ?_, ?_, hle, fun k hk => hge k ?_, hlegal⟩
    · rw [State.setPc_sp, State.setSp_sp, hsp]
      omega
    · rw [State.setPc_pc, List.getD_eq_getElem _ _ hlt, Vector.getElem_toList]
      exact (hle ⟨s.sp.toNat - 1, by omega⟩).trans (by decide)
    · rw [State.setPc_sp, State.setSp_sp, hsp] at hk
      omega

theorem execCall_keepsInv (nnn : Addr12) : KeepsInv (execCall nnn s) := by
  intro t h
  obtain ⟨-, rfl⟩ | ⟨hlt, rfl⟩ := execCall_cases h
  · exact State.inv_setFault hs (by simp [FaultRecord.legal, encode, ha])
  · obtain ⟨hmem, -, -, hle, hge, hlegal⟩ := hs
    have hsp : (s.sp + 1).toNat = s.sp.toNat + 1 := s.sp_add_one hlt
    refine ⟨hmem, ?_, ?_, fun k => ?_, fun k hk => ?_, hlegal⟩
    · rw [State.setPc_sp, State.setSp_sp, hsp]
      omega
    · rw [State.setPc_pc, addrWord_toNat]
      omega
    · simp only [State.setPc_stack, State.setSp_stack, State.setStack_stack, Vector.getElem_set]
      split
      · bv_omega
      · exact hle k
    · rw [State.setPc_sp, State.setSp_sp, hsp] at hk
      simp only [State.setPc_stack, State.setSp_stack, State.setStack_stack, Vector.getElem_set]
      split
      · bv_omega
      · exact hge k (by omega)

/-- Every instruction fetched from memory keeps the invariant, whatever its draws. -/
theorem execWith_keepsInv (rnd : Byte) (pick : Nat) (i : Instr) : KeepsInv (execWith rnd pick i s) := by
  cases i with
  | ret => exact execRet_keepsInv hs ha
  | call nnn => exact execCall_keepsInv hs ha nnn
  | sys nnn => exact keepsInv_next (State.inv_setFault hs (by simp [FaultRecord.legal, ha]))
  | jp nnn =>
    refine keepsInv_next (State.inv_setPc hs ?_)
    rw [addrWord_toNat]
    omega
  | jpV0 nnn =>
    refine keepsInv_next (State.inv_setPc hs ?_)
    rw [addrWord_add_readVWord_toNat]
    omega
  | seImm x kk | sneImm x kk | seReg x y | sneReg x y | skp x | sknp x => exact keepsInv_skipIf hs ha _
  | ldVxK x =>
    obtain ⟨-, e⟩ | ⟨_, _, -, e⟩ := waitKey_cases pick x s
    · rw [execWith, e]
      exact keepsInv_next hs
    · rw [execWith, e]
      exact keepsInv_advance hs ha rfl rfl rfl rfl rfl
  | drw x y n => exact keepsInv_withData hs ha _ _ fun _ => State.inv_advance hs ha hs.mem_wf rfl rfl rfl rfl
  | ldB x => exact keepsInv_storeData hs ha _ (Nat.succ_pos _) (bcdDigits_length _)
  | storeRegs x => exact keepsInv_storeData hs ha _ (Nat.succ_pos _) (s.regsUpTo_length x)
  | loadRegs x =>
    refine keepsInv_withData hs ha _ _ fun _ => State.inv_advance hs ha ?_ ?_ ?_ ?_ ?_
    · rw [State.writeRegs_mem]
      exact hs.mem_wf
    · exact State.writeRegs_pc _ s 0
    · exact State.writeRegs_sp _ s 0
    · exact State.writeRegs_stack _ s 0
    · exact State.writeRegs_fault _ s 0
  | cls | ldImm x kk | addImm x kk | ldReg x y | orReg x y | andReg x y | xorReg x y | addReg x y | subReg x y
  | shr x y | subnReg x y | shl x y | rnd x kk | ldVxDt x | ldDtVx x | ldStVx x | ldI nnn | addI x | ldF x =>
    exact keepsInv_advance hs ha rfl rfl rfl rfl rfl

end

/-! ### The step (30_encoding.md R100) -/

/-- A cycle answers and keeps the invariant, whatever runs the decoded instruction, as long as that does. -/
theorem State.cycle_keepsInv {s : State} {run : Instr → State → Result} (hs : s.Inv)
    (hrun : ∀ i, s.pc.toNat ≤ 0xFFE → ∃ t, run i s = .next t ∧ t.Inv) : ∃ t, s.cycle run = .next t ∧ t.Inv := by
  by_cases hf : s.fault = none
  · cases ho : s.fetchOpcode with
    | none =>
      have hpc : s.pc.toNat + 1 > 0xFFF := s.fetchOpcode_none.1 ho
      exact ⟨_, s.cycle_noFetch run hf ho, State.inv_setFault hs (by simpa [FaultRecord.legal] using hpc)⟩
    | some w =>
      have hpc : s.pc.toNat ≤ 0xFFE := Nat.le_of_succ_le_succ ((s.fetchOpcode_some w).1 ho).1
      cases hd : decodeWord w with
      | error e => exact ⟨_, s.cycle_invalid run w e hf ho hd, State.inv_setFault hs (by simp [FaultRecord.legal, hpc])⟩
      | ok i =>
        rw [s.cycle_runs run w i hf ho hd]
        exact hrun i hpc
  · exact ⟨s, s.cycle_halted run hf, hs⟩

theorem State.cycle_execWith_keepsInv {s : State} (hs : s.Inv) (rnd : Byte) (pick : Nat) :
    ∃ t, s.cycle (execWith rnd pick) = .next t ∧ t.Inv := by
  refine State.cycle_keepsInv hs fun i hpc => ?_
  obtain ⟨t, ht⟩ := execWith_answers hs.sp_le rnd pick i
  exact ⟨t, ht, execWith_keepsInv hs hpc rnd pick i t ht⟩

/-- A step is the cycle for the free draws at the count. -/
theorem step_eq_cycle (s : State) : step s = s.cycle (execWith (Config.rnd s.draws) (Config.pick s.draws)) := by
  simp only [step, State.cycle, exec_eq_execWith]

theorem step_keepsInv {s : State} (hs : s.Inv) : ∃ t, step s = .next t ∧ t.Inv := by
  rw [step_eq_cycle]
  exact State.cycle_execWith_keepsInv hs _ _

/-- Settles O14: a cycle keeps the invariant because every instruction does, for the free draws too. -/
theorem stepAnswersAndKeepsTheInvariant : Obligations.StepAnswersAndKeepsTheInvariant :=
  fun _ hs => step_keepsInv hs

/-! ### The other operations (00_scope.md R6) -/

section
variable {s : State} (hs : s.Inv)
include hs

theorem loadProgram_inv (bytes : List Byte) : (loadProgram bytes s).Inv := by
  by_cases hf : s.fault = none
  · obtain hfit | hlong := le_or_gt bytes.length maxRom
    · rw [loadProgram_fits hf hfit]
      have hin : progBase + bytes.length ≤ memSize := by
        simp only [maxRom, progBase, memSize] at *
        omega
      exact State.inv_of_same hs (Memory.wf_writeBytes bytes s.mem progBase hin hs.mem_wf) hs.pc_le rfl rfl rfl
    · rw [loadProgram_oversized hf hlong]
      exact State.inv_setFault hs (by simpa [FaultRecord.legal] using hlong)
  · rwa [loadProgram_halted bytes hf]

theorem tick_inv : (tick s).1.Inv := by
  unfold tick
  split <;> exact hs

theorem keyUpdateUnder_inv (keymap : HostKey → Option Key) (pressed : List HostKey) :
    (keyUpdateUnder keymap pressed s).Inv := by
  unfold keyUpdateUnder
  split <;> exact hs

theorem redrawAck_inv : (redrawAck s).Inv := by
  unfold redrawAck
  split <;> exact hs

theorem performUnder_keepsInv (font : Font) (o : Op) : ∃ t, performUnder font o s = .next t ∧ t.Inv := by
  cases o with
  | reset => exact ⟨_, rfl, resetUnder_inv font s⟩
  | loadProgram bytes => exact ⟨_, rfl, loadProgram_inv hs bytes⟩
  | step => exact step_keepsInv hs
  | tick => exact ⟨_, rfl, tick_inv hs⟩
  | keyUpdate pressed => exact ⟨_, rfl, keyUpdateUnder_inv hs Config.keymap pressed⟩
  | redrawAck => exact ⟨_, rfl, redrawAck_inv hs⟩

end

/-- The operations over `Block` are those over `State` with a count of draws that nothing reads. -/
theorem Block.perform_keepsInv {b : Block} (hb : b.Inv) (font : Font) (rnd : Byte) (pick : Nat) (o : Op) :
    ∃ c, b.perform font rnd pick o = .next c ∧ c.Inv := by
  have hs : (b.withDraws 0).Inv := hb
  cases o with
  | reset => exact ⟨_, rfl, resetUnder_inv font (b.withDraws 0)⟩
  | loadProgram bytes => exact ⟨_, rfl, loadProgram_inv hs bytes⟩
  | step =>
    obtain ⟨t, ht, hinv⟩ := State.cycle_execWith_keepsInv hs rnd pick
    exact ⟨t.toBlock, congrArg blockOf ht, hinv⟩
  | tick => exact ⟨_, rfl, tick_inv hs⟩
  | keyUpdate pressed => exact ⟨_, rfl, keyUpdateUnder_inv hs Config.keymap pressed⟩
  | redrawAck => exact ⟨_, rfl, redrawAck_inv hs⟩

/-! ### Schedules (00_scope.md R7) -/

theorem performAllUnder_keepsInv (font : Font) (os : List Op) {s : State} (hs : s.Inv) :
    ∃ t, performAllUnder font os s = .next t ∧ t.Inv := by
  induction os generalizing s with
  | nil => exact ⟨s, rfl, hs⟩
  | cons o os ih =>
    obtain ⟨t, ht, hinv⟩ := performUnder_keepsInv hs font o
    rw [performAllUnder, ht]
    exact ih hinv

theorem Block.performAll_keepsInv (font : Font) (os : List (Op × Byte × Nat)) {b : Block} (hb : b.Inv) :
    ∃ c, b.performAll font os = .next c ∧ c.Inv := by
  induction os generalizing b with
  | nil => exact ⟨b, rfl, hb⟩
  | cons o os ih =>
    obtain ⟨o, rnd, pick⟩ := o
    obtain ⟨c, hc, hinv⟩ := Block.perform_keepsInv hb font rnd pick o
    rw [Block.performAll, hc]
    exact ih hinv

/-- Settles O15: by induction on the schedule, each operation by its own lemma. -/
theorem everyScheduleKeepsTheInvariant : Obligations.EveryScheduleKeepsTheInvariant :=
  ⟨fun font os _ hs => performAllUnder_keepsInv font os hs, fun font os _ hb => Block.performAll_keepsInv font os hb⟩

end Sys2Proof.Machine
end

section
/-! PROOFS. The count of draws makes no difference to an instruction that uses no draw (O22), so that the operations of
the host's machine are those over the block alone (O60). -/

namespace Sys2Proof.Machine

/-! ### CALL and RET and a change of state they do not look at -/

theorem execRet_stuck {s : State} (h : 16 < s.sp.toNat) : execRet s = .fault .stackEntryAbsent := by
  have hne : s.sp ≠ 0#8 := fun e => absurd h (by simp [e])
  rw [execRet, if_neg hne, s.pop_none h]

theorem execCall_stuck {s : State} (nnn : Addr12) (h : 16 < s.sp.toNat) :
    execCall nnn s = .fault .stackEntryAbsent := by
  have hne : s.sp ≠ 16#8 := fun e => absurd h (by simp [e])
  rw [execCall, if_neg hne, s.push_none (s.pc + 2) (Nat.le_of_lt h)]

section
variable {f : State → State} {s : State} (hsp : (f s).sp = s.sp) (hstack : (f s).stack = s.stack)
  (hpc : (f s).pc = s.pc) (hfault : ∀ r, (f s).setFault r = f (s.setFault r))
include hsp hstack hpc hfault

theorem execRet_comm (hpop : ∀ v w, ((f s).setSp v).setPc w = f ((s.setSp v).setPc w)) :
    execRet (f s) = mapNext f (execRet s) := by
  obtain h0 | hpos := Nat.eq_zero_or_pos s.sp.toNat
  · rw [execRet_underflow h0, execRet_underflow (by rwa [hsp]), mapNext_next, hpc, hfault]
  · obtain hle | hgt := le_or_gt s.sp.toNat 16
    · rw [execRet_pops hpos hle, execRet_pops (by rwa [hsp]) (by rwa [hsp]), mapNext_next, hpop]
      simp only [hsp, hstack]
    · rw [execRet_stuck hgt, execRet_stuck (by rwa [hsp])]
      rfl

theorem execCall_comm (nnn : Addr12)
    (hpush : ∀ k v w, (((f s).setStack k).setSp v).setPc w = f (((s.setStack k).setSp v).setPc w)) :
    execCall nnn (f s) = mapNext f (execCall nnn s) := by
  obtain hlt | h16 | hgt := Nat.lt_trichotomy s.sp.toNat 16
  · rw [execCall_pushes nnn hlt, execCall_pushes nnn (by rwa [hsp]), mapNext_next, hpush]
    simp only [hsp, hstack, hpc]
  · rw [execCall_overflow nnn h16, execCall_overflow nnn (by rwa [hsp]), mapNext_next, hpc, hfault]
  · rw [execCall_stuck nnn hgt, execCall_stuck nnn (by rwa [hsp])]
    rfl

end

/-! ### The stack and the count of draws, to the instructions that use neither -/

/-- Another stack and another count of draws. -/
def State.mapHidden (stack : Vector Word 16 → Vector Word 16) (draws : Nat → Nat) (s : State) : State :=
  (s.setStack (stack s.stack)).setDraws (draws s.draws)

theorem exec_mapHidden (stack : Vector Word 16 → Vector Word 16) (draws : Nat → Nat) (i : Instr) (s : State)
    (hcall : ∀ nnn, i ≠ .call nnn) (hret : i ≠ .ret) (hrnd : ∀ x kk, i ≠ .rnd x kk) (hkey : ∀ x, i ≠ .ldVxK x) :
    exec i (s.mapHidden stack draws) = mapNext (State.mapHidden stack draws) (exec i s) := by
  cases i with
  | call nnn => exact absurd rfl (hcall nnn)
  | ret => exact absurd rfl hret
  | rnd x kk => exact absurd rfl (hrnd x kk)
  | ldVxK x => exact absurd rfl (hkey x)
  | drw x y n | ldB x | storeRegs x =>
    exact State.withData_comm (f := State.mapHidden stack draws) rfl rfl (fun _ => rfl) _ _ rfl
  | loadRegs x =>
    have hload :=
      State.writeRegs_comm (f := State.mapHidden stack draws) (fun _ _ _ => rfl) (s.dataBytes (x.val + 1)) s 0
    exact State.withData_comm (f := State.mapHidden stack draws) rfl rfl (fun _ => rfl) _ _
      (congrArg (fun t => Host.Outcome.next t.advance) hload)
  | cls | sys nnn | jp nnn | seImm x kk | sneImm x kk | seReg x y | ldImm x kk | addImm x kk | ldReg x y | orReg x y
  | andReg x y | xorReg x y | addReg x y | subReg x y | shr x y | subnReg x y | shl x y | sneReg x y | ldI nnn
  | jpV0 nnn | skp x | sknp x | ldVxDt x | ldDtVx x | ldStVx x | addI x | ldF x => rfl

/-! ### The count of draws (00_scope.md R9) -/

theorem exec_setDraws (i : Instr) (s : State) (d : Nat) (hrnd : ∀ x kk, i ≠ .rnd x kk) (hkey : ∀ x, i ≠ .ldVxK x) :
    exec i (s.setDraws d) = mapNext (fun t => t.setDraws d) (exec i s) := by
  cases i with
  | ret => exact execRet_comm (f := fun t => t.setDraws d) rfl rfl rfl (fun _ => rfl) fun _ _ => rfl
  | call nnn => exact execCall_comm (f := fun t => t.setDraws d) rfl rfl rfl (fun _ => rfl) nnn fun _ _ _ => rfl
  | _ => exact exec_mapHidden id (fun _ => d) _ s nofun nofun hrnd hkey

/-- Settles O22: CALL and RET by their own lemmas, every other instruction by `exec_mapHidden`. -/
theorem otherInstructionsIgnoreTheDraws : Obligations.OtherInstructionsIgnoreTheDraws :=
  exec_setDraws

theorem blockOf_mapNext_setDraws (d : Nat) (o : Result) : blockOf (mapNext (fun t => t.setDraws d) o) = blockOf o := by
  cases o <;> rfl

/-- LD Vx,K with one draw, from two states that differ in the count alone. -/
theorem waitKey_same_block (pick : Nat) (x : Reg) (s : State) (d : Nat) :
    ∃ t v, waitKey pick x s = .next t ∧ waitKey pick x (s.setDraws d) = .next v ∧ t.toBlock = v.toBlock := by
  obtain ⟨hno, e⟩ | ⟨k, rest, hheld, e⟩ := waitKey_cases pick x s
  · exact ⟨_, _, e, waitKey_waits (s := s.setDraws d) pick x hno, rfl⟩
  · exact ⟨_, _, e, waitKey_loads (s := s.setDraws d) pick x hheld, rfl⟩

/-- For given draws the count makes no difference to the block. -/
theorem execWith_setDraws_block (rnd : Byte) (pick : Nat) (i : Instr) (s : State) (d : Nat) :
    blockOf (execWith rnd pick i (s.setDraws d)) = blockOf (execWith rnd pick i s) := by
  by_cases hrnd : ∃ x kk, i = .rnd x kk
  · obtain ⟨x, kk, rfl⟩ := hrnd
    rfl
  · by_cases hkey : ∃ x, i = .ldVxK x
    · obtain ⟨x, rfl⟩ := hkey
      obtain ⟨t, v, ht, hv, hblock⟩ := waitKey_same_block pick x s d
      rw [execWith, execWith, ht, hv, blockOf_next, blockOf_next, hblock]
    · simp only [not_exists] at hrnd hkey
      rw [execWith_eq_exec rnd pick i _ hrnd hkey, execWith_eq_exec rnd pick i _ hrnd hkey,
        exec_setDraws i s d hrnd hkey, blockOf_mapNext_setDraws]

theorem State.cycle_setDraws_block {run : Instr → State → Result} {s : State} {d : Nat}
    (hrun : ∀ i, blockOf (run i (s.setDraws d)) = blockOf (run i s)) :
    blockOf ((s.setDraws d).cycle run) = blockOf (s.cycle run) := by
  by_cases hf : s.fault = none
  · cases ho : s.fetchOpcode with
    | none =>
      rw [s.cycle_noFetch run hf ho, (s.setDraws d).cycle_noFetch run hf ho]
      rfl
    | some w =>
      cases hd : decodeWord w with
      | error e =>
        rw [s.cycle_invalid run w e hf ho hd, (s.setDraws d).cycle_invalid run w e hf ho hd]
        rfl
      | ok i =>
        rw [s.cycle_runs run w i hf ho hd, (s.setDraws d).cycle_runs run w i hf ho hd]
        exact hrun i
  · rw [s.cycle_halted run hf, (s.setDraws d).cycle_halted run hf]
    rfl

theorem step_block (s : State) : blockOf (step s) = s.toBlock.step (Config.rnd s.draws) (Config.pick s.draws) := by
  rw [step_eq_cycle, Block.step, State.toBlock_withDraws]
  exact (State.cycle_setDraws_block fun i => execWith_setDraws_block _ _ i s 0).symm

/-! The other operations commute with the count, halted or running. -/

theorem loadProgram_setDraws (bytes : List Byte) (s : State) (d : Nat) :
    loadProgram bytes (s.setDraws d) = (loadProgram bytes s).setDraws d := by
  by_cases hf : s.fault = none
  · obtain hfit | hlong := le_or_gt bytes.length maxRom
    · rw [loadProgram_fits hf hfit, loadProgram_fits (s := s.setDraws d) hf hfit]
      rfl
    · rw [loadProgram_oversized hf hlong, loadProgram_oversized (s := s.setDraws d) hf hlong]
      rfl
  · rw [loadProgram_halted bytes hf, loadProgram_halted (s := s.setDraws d) bytes hf]

theorem tick_setDraws (s : State) (d : Nat) : (tick (s.setDraws d)).1 = (tick s).1.setDraws d := by
  by_cases hf : s.fault = none
  · rw [tick_running hf, tick_running (s := s.setDraws d) hf]
    rfl
  · rw [tick_halted hf, tick_halted (s := s.setDraws d) hf]

theorem keyUpdateUnder_setDraws (keymap : HostKey → Option Key) (pressed : List HostKey) (s : State) (d : Nat) :
    keyUpdateUnder keymap pressed (s.setDraws d) = (keyUpdateUnder keymap pressed s).setDraws d := by
  by_cases hf : s.fault = none
  · rw [keyUpdateUnder_running _ _ hf, keyUpdateUnder_running (s := s.setDraws d) _ _ hf]
    rfl
  · rw [keyUpdateUnder_halted _ _ hf, keyUpdateUnder_halted (s := s.setDraws d) _ _ hf]

theorem redrawAck_setDraws (s : State) (d : Nat) : redrawAck (s.setDraws d) = (redrawAck s).setDraws d := by
  by_cases hf : s.fault = none
  · rw [redrawAck_running hf, redrawAck_running (s := s.setDraws d) hf]
    rfl
  · rw [redrawAck_halted hf, redrawAck_halted (s := s.setDraws d) hf]

/-- Every operation gives the block that the same operation over blocks gives for the free draws at the count. -/
theorem performUnder_block (font : Font) (o : Op) (s : State) :
    blockOf (performUnder font o s) = s.toBlock.perform font (Config.rnd s.draws) (Config.pick s.draws) o := by
  cases o with
  | reset => rfl
  | loadProgram bytes => exact congrArg (fun t => Host.Outcome.next t.toBlock) (loadProgram_setDraws bytes s 0).symm
  | step => exact step_block s
  | tick => exact congrArg (fun t => Host.Outcome.next t.toBlock) (tick_setDraws s 0).symm
  | keyUpdate pressed =>
    exact congrArg (fun t => Host.Outcome.next t.toBlock) (keyUpdateUnder_setDraws Config.keymap pressed s 0).symm
  | redrawAck => exact congrArg (fun t => Host.Outcome.next t.toBlock) (redrawAck_setDraws s 0).symm

/-- A schedule gives the block of the same schedule over blocks, each operation with the draws at its own count. -/
theorem performAllUnder_block (font : Font) (os : List Op) (s : State) : ∃ draws : List (Byte × Nat),
    draws.length = os.length ∧ blockOf (performAllUnder font os s) = s.toBlock.performAll font (os.zip draws) := by
  induction os generalizing s with
  | nil => exact ⟨[], rfl, rfl⟩
  | cons o os ih =>
    have hblock := performUnder_block font o s
    cases hperform : performUnder font o s with
    | next t =>
      obtain ⟨draws, hlen, hrest⟩ := ih t
      refine ⟨(Config.rnd s.draws, Config.pick s.draws) :: draws, congrArg Nat.succ hlen, ?_⟩
      rw [hperform, blockOf_next] at hblock
      rw [performAllUnder, hperform, List.zip_cons_cons, Block.performAll, ← hblock, hrest]
    | fault r =>
      refine ⟨List.replicate (os.length + 1) (Config.rnd s.draws, Config.pick s.draws), List.length_replicate, ?_⟩
      rw [hperform, blockOf_fault] at hblock
      rw [performAllUnder, hperform, List.replicate_succ, List.zip_cons_cons, Block.performAll, ← hblock,
        blockOf_fault]
    | refused r =>
      refine ⟨List.replicate (os.length + 1) (Config.rnd s.draws, Config.pick s.draws), List.length_replicate, ?_⟩
      rw [hperform, blockOf_refused] at hblock
      rw [performAllUnder, hperform, List.replicate_succ, List.zip_cons_cons, Block.performAll, ← hblock,
        blockOf_refused]

/-- Settles O60: the operations and the schedules by `performUnder_block`; two states with one block differ in the count
alone, which only the choice of a draw reads. -/
theorem drawsAreInputsNotState : Obligations.DrawsAreInputsNotState := by
  refine ⟨performUnder_block, performAllUnder_block, fun s u hblock => ?_⟩
  obtain ⟨d, rfl⟩ : ∃ d, u = s.setDraws d := ⟨_, State.eq_setDraws hblock⟩
  refine ⟨fun x kk => ⟨rfl, fun r => ⟨_, _, rfl, rfl, rfl⟩⟩,
    fun x => ⟨rfl, fun pick => waitKey_same_block pick x s d⟩, ?_⟩
  intro i t hrnd hkey h
  exact ⟨t.setDraws d, by rw [exec_setDraws i s d hrnd hkey, h, mapNext_next], rfl⟩

end Sys2Proof.Machine
end

section
/-! PROOFS. What makes no difference to an instruction: stack entries that `sp` does not count (O21), and registers it
does not read (O18). -/

namespace Sys2Proof.Machine

/-! ### Stack entries that `sp` does not count (10_state.md R29) -/

theorem waitKey_setStack (pick : Nat) (x : Reg) (s : State) (stack : Vector Word 16) :
    waitKey pick x (s.setStack stack) = mapNext (fun t => t.setStack stack) (waitKey pick x s) := by
  obtain ⟨hno, e⟩ | ⟨k, rest, hheld, e⟩ := waitKey_cases pick x s
  · rw [e, waitKey_waits (s := s.setStack stack) pick x hno]
    rfl
  · rw [e, waitKey_loads (s := s.setStack stack) pick x hheld]
    rfl

theorem exec_setStack (i : Instr) (s : State) (stack : Vector Word 16) (hcall : ∀ nnn, i ≠ .call nnn)
    (hret : i ≠ .ret) : exec i (s.setStack stack) = mapNext (fun t => t.setStack stack) (exec i s) := by
  cases i with
  | rnd x kk => rfl
  | ldVxK x => exact waitKey_setStack _ x s stack
  | _ => exact exec_mapHidden (fun _ => stack) id _ s hcall hret nofun nofun

/-- An instruction other than CALL and RET leaves the stack: by `exec_setStack` its outcome is the same with the stack
set back to what it was. -/
theorem exec_stack_of_ne {i : Instr} {s t : State} (hcall : ∀ nnn, i ≠ .call nnn) (hret : i ≠ .ret)
    (h : exec i s = .next t) : t.stack = s.stack := by
  have e := exec_setStack i s s.stack hcall hret
  rw [State.setStack_self, h, mapNext_next, Host.Outcome.next.injEq] at e
  rw [e, State.setStack_stack]

section
variable {s : State} {stack : Vector Word 16} (hsp : s.sp.toNat ≤ 16)
  (hlow : ∀ k : Fin 16, k.val < s.sp.toNat → stack[k.val] = s.stack[k.val])
include hsp hlow

theorem execRet_stale : ∃ s' t', execRet s = .next s' ∧ execRet (s.setStack stack) = .next t' ∧ SameButStale s' t' := by
  obtain h0 | hpos := Nat.eq_zero_or_pos s.sp.toNat
  · exact ⟨_, _, execRet_underflow h0, execRet_underflow (s := s.setStack stack) h0, rfl, hlow⟩
  · have hpop : stack[s.sp.toNat - 1] = s.stack[s.sp.toNat - 1] :=
      hlow ⟨s.sp.toNat - 1, by omega⟩ (Nat.sub_lt hpos one_pos)
    refine ⟨_, _, execRet_pops hpos hsp, execRet_pops (s := s.setStack stack) hpos hsp, ?_, fun k hk => hlow k ?_⟩
    · simp only [State.setStack_stack, State.setStack_sp, hpop]
      rfl
    · rw [State.setPc_sp, State.setSp_sp, s.sp_sub_one hpos] at hk
      omega

theorem execCall_stale (nnn : Addr12) :
    ∃ s' t', execCall nnn s = .next s' ∧ execCall nnn (s.setStack stack) = .next t' ∧ SameButStale s' t' := by
  obtain hlt | h16 := Nat.lt_or_eq_of_le hsp
  · refine ⟨_, _, execCall_pushes nnn hlt, execCall_pushes (s := s.setStack stack) nnn hlt, rfl, fun k hk => ?_⟩
    rw [State.setPc_sp, State.setSp_sp, s.sp_add_one hlt] at hk
    simp only [State.setPc_stack, State.setSp_stack, State.setStack_stack, State.setStack_sp, State.setStack_pc,
      Vector.getElem_set]
    split
    · rfl
    · exact hlow k (by omega)
  · exact ⟨_, _, execCall_overflow nnn h16, execCall_overflow (s := s.setStack stack) nnn h16, rfl, hlow⟩

/-- From states that differ in such entries only, every instruction leads to states that differ in such entries only. -/
theorem exec_stale (i : Instr) :
    ∃ s' t', exec i s = .next s' ∧ exec i (s.setStack stack) = .next t' ∧ SameButStale s' t' := by
  by_cases hcall : ∃ nnn, i = .call nnn
  · obtain ⟨nnn, rfl⟩ := hcall
    exact execCall_stale hsp hlow nnn
  · by_cases hret : i = .ret
    · subst hret
      exact execRet_stale hsp hlow
    · rw [not_exists] at hcall
      obtain ⟨u, hu⟩ := exec_answers hsp i
      refine ⟨u, u.setStack stack, hu, by rw [exec_setStack i s stack hcall hret, hu, mapNext_next], rfl, ?_⟩
      rw [exec_sp_of_ne hcall hret hu, exec_stack_of_ne hcall hret hu]
      exact hlow

end

/-- Settles O21: the fetch and the decoder do not see the stack, and an instruction is `exec_stale`. -/
theorem staleStackEntriesAreUnobservable : Obligations.StaleStackEntriesAreUnobservable := by
  rintro s t hsp ⟨ht, hlow⟩
  obtain ⟨stack, rfl⟩ : ∃ stack, t = s.setStack stack := ⟨_, ht⟩
  by_cases hf : s.fault = none
  · cases ho : s.fetchOpcode with
    | none => exact ⟨_, _, step_noFetch s hf ho, step_noFetch (s.setStack stack) hf ho, rfl, hlow⟩
    | some w =>
      cases hd : decodeWord w with
      | error e => exact ⟨_, _, step_invalid s w e hf ho hd, step_invalid (s.setStack stack) w e hf ho hd, rfl, hlow⟩
      | ok i =>
        rw [step_runs s w i hf ho hd, step_runs (s.setStack stack) w i hf ho hd]
        exact exec_stale hsp hlow i
  · exact ⟨_, _, step_halted s hf, step_halted (s.setStack stack) hf, rfl, hlow⟩

/-! ### Registers that an instruction does not read (10_state.md R23) -/

theorem State.writeV_writeV_same (s : State) (r : Reg) (v w : Byte) : (s.writeV r v).writeV r w = s.writeV r w := by
  simp only [State.writeV, State.setV_V, Vector.set_set, State.setV_setV]

theorem State.writeV_writeV_of_ne (s : State) {r x : Reg} (v w : Byte) (h : r ≠ x) :
    (s.writeV r v).writeV x w = (s.writeV x w).writeV r v := by
  have hne : r.val ≠ x.val := fun e => h (Fin.ext e)
  simp only [State.writeV, State.setV_V, State.setV_setV, Vector.set_comm _ _ hne]

/-- The outcome with one register's value left out of account. -/
def forgetV (r : Reg) (o : Result) : Result := mapNext (fun t => t.writeV r 0#8) o

/-- States that agree but for the register `r`. -/
def AgreeButV (r : Reg) (s u : State) : Prop := s.writeV r 0#8 = u.writeV r 0#8

theorem agreeButV_writeV_self (r : Reg) (b : Byte) (s : State) : AgreeButV r (s.writeV r b) s :=
  s.writeV_writeV_same r b 0#8

theorem AgreeButV.writeV {r : Reg} {s u : State} (h : AgreeButV r s u) (x : Reg) (v : Byte) :
    AgreeButV r (s.writeV x v) (u.writeV x v) := by
  unfold AgreeButV at *
  by_cases hx : x = r
  · rw [hx, State.writeV_writeV_same, State.writeV_writeV_same, h]
  · rw [State.writeV_writeV_of_ne _ _ _ hx, State.writeV_writeV_of_ne _ _ _ hx, h]

theorem AgreeButV.writeRegs {r : Reg} {s u : State} (h : AgreeButV r s u) (k : Nat) (bs : List Byte) :
    AgreeButV r (s.writeRegs k bs) (u.writeRegs k bs) := by
  induction bs generalizing s u k with
  | nil => exact h
  | cons b bs ih =>
    simp only [State.writeRegs]
    split
    · exact ih (h.writeV _ b) (k + 1)
    · exact ih h (k + 1)

theorem AgreeButV.advance {r : Reg} {s u : State} (h : AgreeButV r s u) : AgreeButV r s.advance u.advance :=
  congrArg State.advance h

theorem AgreeButV.forgetV_next {r : Reg} {s u : State} (h : AgreeButV r s u) :
    forgetV r (.next s) = forgetV r (.next u) :=
  congrArg Host.Outcome.next h

section
variable {r : Reg} {b : Byte} {s : State}

/-- An outcome that passes on the register's value. -/
theorem forgetV_of_comm (b : Byte) {o o' : Result} (h : o' = mapNext (fun t => t.writeV r b) o) :
    forgetV r o' = forgetV r o := by
  subst h
  cases o with
  | next t => exact (agreeButV_writeV_self r b t).forgetV_next
  | fault _ | refused _ => rfl

theorem forgetV_setResult (x : Reg) (v : Byte) :
    forgetV r ((s.writeV r b).setResult x v) = forgetV r (s.setResult x v) :=
  ((agreeButV_writeV_self r b s).writeV x v).advance.forgetV_next

theorem forgetV_setResultFlag (x : Reg) (v : Byte) (c : Bool) :
    forgetV r ((s.writeV r b).setResultFlag x v c) = forgetV r (s.setResultFlag x v c) :=
  (((agreeButV_writeV_self r b s).writeV x v).writeV VF (flagByte c)).advance.forgetV_next

/-- The data bound does not look at a register. -/
theorem forgetV_withData (i : Instr) (m : Nat) {u u' : State} (h : AgreeButV r u' u) :
    forgetV r ((s.writeV r b).withData i m (.next u')) = forgetV r (s.withData i m (.next u)) := by
  obtain ⟨hfit, e⟩ | ⟨hm, hover, e⟩ := s.withData_cases i m (.next u)
  · rw [e, (s.writeV r b).withData_fits i m _ hfit]
    exact h.forgetV_next
  · rw [e, (s.writeV r b).withData_overrun i m _ hm hover]
    exact forgetV_of_comm b rfl

theorem forgetV_waitKey (pick : Nat) (x : Reg) :
    forgetV r (waitKey pick x (s.writeV r b)) = forgetV r (waitKey pick x s) := by
  obtain ⟨hno, e⟩ | ⟨k, rest, hheld, e⟩ := waitKey_cases pick x s
  · rw [e, waitKey_waits (s := s.writeV r b) pick x hno]
    exact (agreeButV_writeV_self r b s).forgetV_next
  · rw [e, waitKey_loads (s := s.writeV r b) pick x hheld]
    exact forgetV_setResult (s := s.setDraws (s.draws + 1)) x _

theorem State.readV_writeV_of_unread {x : Reg} {xs : List Reg} (h : r ∉ xs) (hx : x ∈ xs) :
    (s.writeV r b).readV x = s.readV x :=
  State.readV_writeV_of_ne s b fun e => h (e ▸ hx)

theorem State.readV_writeV_unread_head {x : Reg} {xs : List Reg} (h : r ∉ x :: xs) :
    (s.writeV r b).readV x = s.readV x :=
  State.readV_writeV_of_unread h List.mem_cons_self

theorem State.readV_writeV_unread_last {x y : Reg} (h : r ∉ [x, y]) : (s.writeV r b).readV y = s.readV y :=
  State.readV_writeV_of_unread h (List.mem_cons_of_mem x List.mem_cons_self)

theorem State.regsUpTo_writeV_of_unread {x : Reg} (h : r ∉ (List.finRange 16).filter (· ≤ x)) :
    (s.writeV r b).regsUpTo x = s.regsUpTo x := by
  apply List.ext_getElem
  · rw [State.regsUpTo_length, State.regsUpTo_length]
  · intro k hk hk'
    have hle : k ≤ x.val := by
      rw [State.regsUpTo_length] at hk
      omega
    have hk16 : k < 16 := by omega
    have hle' : (⟨k, hk16⟩ : Reg) ≤ x := hle
    rw [State.regsUpTo_get _ _ _ _ hk16, State.regsUpTo_get _ _ _ _ hk16]
    exact State.readV_writeV_of_unread h (List.mem_filter.2 ⟨List.mem_finRange _, decide_eq_true hle'⟩)

/-- Every instruction, by the registers its row of the table says it reads and by the shared update it ends with. -/
theorem exec_forgetV {i : Instr} (h : r ∉ regsRead i) : forgetV r (exec i (s.writeV r b)) = forgetV r (exec i s) := by
  cases i with
  | cls | sys nnn | jp nnn | ldI nnn => exact forgetV_of_comm b rfl
  | ret => exact forgetV_of_comm b (execRet_comm (f := fun t => t.writeV r b) rfl rfl rfl (fun _ => rfl) fun _ _ => rfl)
  | call nnn =>
    exact forgetV_of_comm b (execCall_comm (f := fun t => t.writeV r b) rfl rfl rfl (fun _ => rfl) nnn fun _ _ _ => rfl)
  | ldImm x kk | ldVxDt x => exact forgetV_setResult x _
  | rnd x kk => exact forgetV_setResult (s := s.setDraws (s.draws + 1)) x _
  | ldVxK x => exact forgetV_waitKey _ x
  | loadRegs x => exact forgetV_withData _ _ ((agreeButV_writeV_self r b s).writeRegs 0 _).advance
  | seImm x kk | sneImm x kk | skp x | sknp x | ldDtVx x | ldStVx x | addI x | ldF x =>
    have hx : (s.writeV r b).readV x = s.readV x := State.readV_writeV_unread_head h
    refine forgetV_of_comm b ?_
    simp only [exec, execSeImm, execSneImm, execSkp, execSknp, execLdDtVx, execLdStVx, execAddI, execLdF,
      State.readVWord, hx]
    rfl
  | jpV0 nnn =>
    have h0 : (s.writeV r b).readV 0 = s.readV 0 := State.readV_writeV_unread_head h
    refine forgetV_of_comm b ?_
    simp only [exec, execJpV0, State.readVWord, h0]
    rfl
  | seReg x y | sneReg x y =>
    have hx : (s.writeV r b).readV x = s.readV x := State.readV_writeV_unread_head h
    have hy : (s.writeV r b).readV y = s.readV y := State.readV_writeV_unread_last h
    refine forgetV_of_comm b ?_
    simp only [exec, execSeReg, execSneReg, hx, hy]
    rfl
  | addImm x kk =>
    have hx : (s.writeV r b).readV x = s.readV x := State.readV_writeV_unread_head h
    simp only [exec, execAddImm, hx, forgetV_setResult]
  | ldReg x y =>
    have hy : (s.writeV r b).readV y = s.readV y := State.readV_writeV_unread_head h
    simp only [exec, execLdReg, hy, forgetV_setResult]
  | shr x y | shl x y =>
    have hx : (s.writeV r b).readV x = s.readV x := State.readV_writeV_unread_head h
    simp only [exec, execShr, execShl, hx, forgetV_setResultFlag]
  | orReg x y | andReg x y | xorReg x y | addReg x y | subReg x y | subnReg x y =>
    have hx : (s.writeV r b).readV x = s.readV x := State.readV_writeV_unread_head h
    have hy : (s.writeV r b).readV y = s.readV y := State.readV_writeV_unread_last h
    simp only [exec, execOr, execAnd, execXor, execAddReg, execSub, execSubn, hx, hy, forgetV_setResult,
      forgetV_setResultFlag]
  | drw x y n =>
    have hx : (s.writeV r b).readV x = s.readV x := State.readV_writeV_unread_head h
    have hy : (s.writeV r b).readV y = s.readV y := State.readV_writeV_unread_last h
    simp only [exec, execDrw, hx, hy]
    have hdrawn := agreeButV_writeV_self r b
      (s.drawSprite (s.readV x).toNat (s.readV y).toNat (s.dataBytes n.toNat)).1
    exact forgetV_withData _ _ (hdrawn.writeV VF _).advance
  | ldB x =>
    have hx : (s.writeV r b).readV x = s.readV x := State.readV_writeV_unread_head h
    simp only [exec, execLdB, hx]
    exact forgetV_withData _ _ (agreeButV_writeV_self r b (s.storeData (bcdDigits (s.readV x)))).advance
  | storeRegs x =>
    have hregs : (s.writeV r b).regsUpTo x = s.regsUpTo x := State.regsUpTo_writeV_of_unread h
    simp only [exec, execStoreRegs, hregs]
    exact forgetV_withData _ _ (agreeButV_writeV_self r b (s.storeData (s.regsUpTo x))).advance

end

/-- Settles O18: `exec_forgetV`. -/
theorem unreadRegistersInfluenceNothing : Obligations.UnreadRegistersInfluenceNothing :=
  fun _ _ _ _ h => exec_forgetV h

end Sys2Proof.Machine
end

section
/-! PROOFS. The sprite compositor (O39, O40), DRW (O41), and VF after every instruction (O19). -/

namespace Sys2Proof.Machine

/-! ### A sprite as a list of pixels (42_display.md R183, R184)

The compositor's two loops toggle one pixel after another. At most 32 rows of 8 bits land on different pixels, so that
the pixels can be looked at in any order. -/

/-- The pixels under the 1 bits of one row. -/
def rowDots (x0 : Nat) (r : Fin 32) (row : Byte) : List (Fin 32 × Fin 64) :=
  ((List.range 8).filter (spriteBit row)).map fun i => (r, wrapCol (x0 + i))

/-- The pixels under the 1 bits of a sprite. -/
def spriteDots (x0 y : Nat) : List Byte → List (Fin 32 × Fin 64)
  | [] => []
  | row :: rows => rowDots x0 (wrapRow y) row ++ spriteDots x0 (y + 1) rows

/-- One toggle, with its collision. -/
def hit (d : Framebuffer × Bool) (p : Fin 32 × Fin 64) : Framebuffer × Bool := plot d true p.1 p.2

theorem blitRow_eq (x0 : Nat) (r : Fin 32) (row : Byte) (d : Framebuffer × Bool) :
    blitRow x0 r row d = (rowDots x0 r row).foldl hit d := by
  rw [blitRow, rowDots, List.foldl_map, List.foldl_filter]
  rfl

theorem blitRows_eq (x0 y : Nat) (rows : List Byte) (d : Framebuffer × Bool) :
    blitRows x0 y rows d = (spriteDots x0 y rows).foldl hit d := by
  induction rows generalizing y d with
  | nil => rfl
  | cons row rows ih => rw [blitRows, ih, blitRow_eq, spriteDots, List.foldl_append]

theorem hit_pixel (d : Framebuffer × Bool) (p q : Fin 32 × Fin 64) :
    Framebuffer.pixel (hit d p).1 q.1 q.2 =
      if q = p then !Framebuffer.pixel d.1 q.1 q.2 else Framebuffer.pixel d.1 q.1 q.2 := by
  simp only [hit, plot_pixel, true_and, Prod.ext_iff]

/-- Toggling different pixels one after another toggles each of them. -/
theorem foldl_hit_pixel {ps : List (Fin 32 × Fin 64)} (hps : ps.Nodup) (d : Framebuffer × Bool) (q : Fin 32 × Fin 64) :
    Framebuffer.pixel (ps.foldl hit d).1 q.1 q.2 =
      if q ∈ ps then !Framebuffer.pixel d.1 q.1 q.2 else Framebuffer.pixel d.1 q.1 q.2 := by
  induction ps generalizing d with
  | nil => simp
  | cons p ps ih =>
    obtain ⟨hp, hps⟩ := List.nodup_cons.1 hps
    rw [List.foldl_cons, ih hps, hit_pixel]
    by_cases hq : q = p
    · subst hq
      simp [hp]
    · simp [hq]

/-- Toggling different pixels reports a collision exactly when one of them was on at first. -/
theorem foldl_hit_collision {ps : List (Fin 32 × Fin 64)} (hps : ps.Nodup) (d : Framebuffer × Bool) :
    (ps.foldl hit d).2 = true ↔ d.2 = true ∨ ∃ p ∈ ps, Framebuffer.pixel d.1 p.1 p.2 = true := by
  induction ps generalizing d with
  | nil => simp
  | cons p ps ih =>
    obtain ⟨hp, hps⟩ := List.nodup_cons.1 hps
    have hrest : ∀ q ∈ ps, Framebuffer.pixel (hit d p).1 q.1 q.2 = Framebuffer.pixel d.1 q.1 q.2 := fun q hq => by
      have hne : q ≠ p := fun e => hp (e ▸ hq)
      rw [hit_pixel, if_neg hne]
    have hfirst : (hit d p).2 = (d.2 || Framebuffer.pixel d.1 p.1 p.2) := by
      rw [hit, plot_collision, Bool.true_and]
    rw [List.foldl_cons, ih hps, hfirst, Bool.or_eq_true, or_assoc, List.exists_mem_cons_iff]
    refine or_congr_right (or_congr_right (exists_congr fun q => and_congr_right fun hq => ?_))
    rw [hrest q hq]

/-! The pixels of the list are those that the spec calls lit, each of them once. -/

theorem mem_rowDots (x0 : Nat) (r : Fin 32) (row : Byte) (q : Fin 32 × Fin 64) :
    q ∈ rowDots x0 r row ↔ ∃ i < 8, row.getLsbD (7 - i) = true ∧ q.1 = r ∧ q.2.val = (x0 + i) % 64 := by
  simp only [rowDots, List.mem_map, List.mem_filter, List.mem_range, spriteBit, Prod.ext_iff, Fin.ext_iff, wrapCol,
    and_assoc, eq_comm]

theorem spriteLit_nil (x0 y0 : Nat) (r : Fin 32) (c : Fin 64) : ¬ SpriteLit [] x0 y0 r c := by
  rintro ⟨j, -, hj, -⟩
  exact absurd hj (Nat.not_lt_zero j)

/-- A sprite lights what its first row lights and what the other rows light one row further down. -/
theorem spriteLit_cons (row : Byte) (rows : List Byte) (x0 y0 : Nat) (r : Fin 32) (c : Fin 64) :
    SpriteLit (row :: rows) x0 y0 r c ↔
      (∃ i < 8, row.getLsbD (7 - i) = true ∧ r.val = y0 % 32 ∧ c.val = (x0 + i) % 64) ∨
      SpriteLit rows x0 (y0 + 1) r c := by
  constructor
  · rintro ⟨j, i, hj, hi, hbit, hr, hc⟩
    cases j with
    | zero => exact .inl ⟨i, hi, hbit, hr, hc⟩
    | succ j => exact .inr ⟨j, i, Nat.lt_of_succ_lt_succ hj, hi, hbit, by rw [hr]; congr 1; omega, hc⟩
  · rintro (⟨i, hi, hbit, hr, hc⟩ | ⟨j, i, hj, hi, hbit, hr, hc⟩)
    · exact ⟨0, i, Nat.succ_pos _, hi, hbit, hr, hc⟩
    · exact ⟨j + 1, i, Nat.succ_lt_succ hj, hi, hbit, by rw [hr]; congr 1; omega, hc⟩

theorem mem_spriteDots (x0 y0 : Nat) (rows : List Byte) (q : Fin 32 × Fin 64) :
    q ∈ spriteDots x0 y0 rows ↔ SpriteLit rows x0 y0 q.1 q.2 := by
  induction rows generalizing y0 with
  | nil => simp [spriteDots, spriteLit_nil]
  | cons row rows ih =>
    rw [spriteDots, List.mem_append, ih, mem_rowDots, spriteLit_cons]
    simp only [wrapRow, Fin.ext_iff]

theorem nodup_rowDots (x0 : Nat) (r : Fin 32) (row : Byte) : (rowDots x0 r row).Nodup := by
  refine (List.nodup_range.filter _).map_on fun i hi j hj hij => ?_
  have hi8 : i < 8 := List.mem_range.1 (List.mem_of_mem_filter hi)
  have hj8 : j < 8 := List.mem_range.1 (List.mem_of_mem_filter hj)
  have hcol : (x0 + i) % 64 = (x0 + j) % 64 := congrArg (fun q => q.2.val) hij
  omega

theorem nodup_spriteDots (x0 y0 : Nat) {rows : List Byte} (h : rows.length ≤ 32) : (spriteDots x0 y0 rows).Nodup := by
  induction rows generalizing y0 with
  | nil => exact List.nodup_nil
  | cons row rows ih =>
    rw [List.length_cons] at h
    refine List.nodup_append'.2 ⟨nodup_rowDots x0 _ row, ih (y0 + 1) (by omega), fun q hq hq' => ?_⟩
    obtain ⟨-, -, -, hrow, -⟩ := (mem_rowDots x0 _ row q).1 hq
    obtain ⟨j, -, hj, -, -, hr, -⟩ := (mem_spriteDots x0 (y0 + 1) rows q).1 hq'
    have hrow' : q.1.val = y0 % 32 := congrArg Fin.val hrow
    omega

/-! ### The compositor (42_display.md R184) -/

theorem drawSprite_eq (s : State) (x0 y0 : Nat) (rows : List Byte) :
    ((s.drawSprite x0 y0 rows).1.fb, (s.drawSprite x0 y0 rows).2) =
      (spriteDots x0 y0 rows).foldl hit (s.fb, false) := by
  rw [← blitRows_eq]
  rfl

section
variable {rows : List Byte} (h : rows.length ≤ 15) (s : State) (x0 y0 : Nat)
include h

theorem drawSprite_composed : Composed s.fb (s.drawSprite x0 y0 rows).1.fb rows x0 y0 := by
  intro r c
  have hpix := foldl_hit_pixel (nodup_spriteDots x0 y0 (h.trans (by decide))) (s.fb, false) (r, c)
  rw [← drawSprite_eq] at hpix
  exact ⟨fun hlit => hpix.trans (if_pos ((mem_spriteDots x0 y0 rows (r, c)).2 hlit)),
    fun hdark => hpix.trans (if_neg (mt (mem_spriteDots x0 y0 rows (r, c)).1 hdark))⟩

theorem drawSprite_collides : (s.drawSprite x0 y0 rows).2 = true ↔ Collides s.fb rows x0 y0 := by
  have hcol := foldl_hit_collision (nodup_spriteDots x0 y0 (h.trans (by decide))) (s.fb, false)
  rw [← drawSprite_eq] at hcol
  simpa [mem_spriteDots, Collides] using hcol

end

theorem Touches.only_drawSprite (s : State) (x0 y0 : Nat) (rows : List Byte) :
    ({ fb := true, redraw := true } : Touches).only s (s.drawSprite x0 y0 rows).1 :=
  Touches.only_display_advance s (blitSprite s.fb x0 y0 rows).1 true

/-- Settles O39: the two loops as one pass over different pixels. -/
theorem blitExclusiveOrsTheSprite : Obligations.BlitExclusiveOrsTheSprite :=
  fun s x0 y0 rows _ _ h =>
    ⟨drawSprite_composed h s x0 y0, drawSprite_collides h s x0 y0, rfl, rfl, Touches.only_drawSprite s x0 y0 rows⟩

/-! ### Twice the same sprite, a row that wraps, and a sprite of zeros (42_display.md R185) -/

theorem Composed.twice {fb fb' fb'' : Framebuffer} {rows : List Byte} {x0 y0 : Nat} (h : Composed fb fb' rows x0 y0)
    (h' : Composed fb' fb'' rows x0 y0) : fb'' = fb := by
  refine Framebuffer.ext_pixel _ _ fun r c => ?_
  by_cases hlit : SpriteLit rows x0 y0 r c
  · rw [(h' r c).1 hlit, (h r c).1 hlit, Bool.not_not]
  · rw [(h' r c).2 hlit, (h r c).2 hlit]

theorem Composed.collides_again {fb fb' : Framebuffer} {rows : List Byte} {x0 y0 : Nat}
    (h : Composed fb fb' rows x0 y0) : Collides fb' rows x0 y0 ↔
      ∃ r c, SpriteLit rows x0 y0 r c ∧ Framebuffer.pixel fb r c = false := by
  refine exists_congr fun r => exists_congr fun c => and_congr_right fun hlit => ?_
  rw [(h r c).1 hlit, Bool.not_eq_true']

theorem Composed.pixel_ne_iff {fb fb' : Framebuffer} {rows : List Byte} {x0 y0 : Nat} (h : Composed fb fb' rows x0 y0)
    (r : Fin 32) (c : Fin 64) : Framebuffer.pixel fb' r c ≠ Framebuffer.pixel fb r c ↔ SpriteLit rows x0 y0 r c := by
  by_cases hlit : SpriteLit rows x0 y0 r c
  · simp [(h r c).1 hlit, hlit]
  · simp [(h r c).2 hlit, hlit]

theorem wrapped_columns : ∀ c : Fin 64, (∃ i < 8, c.val = (60 + i) % 64) ↔ c.val ∈ [60, 61, 62, 63, 0, 1, 2, 3] := by
  decide

theorem fullRow_bits : ∀ i < 8, (0xFF#8).getLsbD (7 - i) = true := by decide

theorem spriteLit_fullRow (y0 : Nat) (r : Fin 32) (c : Fin 64) :
    SpriteLit [0xFF#8] 60 y0 r c ↔ r.val = y0 % 32 ∧ c.val ∈ [60, 61, 62, 63, 0, 1, 2, 3] := by
  rw [spriteLit_cons, ← wrapped_columns]
  constructor
  · rintro (⟨i, hi, -, hr, hc⟩ | hnil)
    · exact ⟨hr, i, hi, hc⟩
    · exact absurd hnil (spriteLit_nil _ _ r c)
  · rintro ⟨hr, i, hi, hc⟩
    exact .inl ⟨i, hi, fullRow_bits i hi, hr, hc⟩

theorem not_spriteLit_zeros (m x0 y0 : Nat) (r : Fin 32) (c : Fin 64) :
    ¬ SpriteLit (List.replicate m 0#8) x0 y0 r c := by
  rintro ⟨j, i, hj, -, hbit, -⟩
  rw [List.getD_eq_getElem _ _ hj, List.getElem_replicate, BitVec.getLsbD_zero] at hbit
  cases hbit

theorem drawSprite_zeros {m : Nat} (h : m ≤ 15) (s : State) (x0 y0 : Nat) :
    (s.drawSprite x0 y0 (List.replicate m 0#8)).1.fb = s.fb ∧
      (s.drawSprite x0 y0 (List.replicate m 0#8)).2 = false := by
  have hlen : (List.replicate m 0#8).length ≤ 15 := List.length_replicate.trans_le h
  refine ⟨Framebuffer.ext_pixel _ _ fun r c => ?_, ?_⟩
  · exact (drawSprite_composed hlen s x0 y0 r c).2 (not_spriteLit_zeros m x0 y0 r c)
  · rw [← Bool.not_eq_true, drawSprite_collides hlen]
    rintro ⟨r, c, hlit, -⟩
    exact not_spriteLit_zeros m x0 y0 r c hlit

/-- Settles O40: `Composed` twice over, and the pixels lit by a full row and by a sprite of zeros. -/
theorem doubleDrawRestoresAndSpritesWrap : Obligations.DoubleDrawRestoresAndSpritesWrap := by
  refine ⟨fun s x0 y0 rows _ _ h => ?_, fun s y0 r c _ => ?_, fun s x0 y0 m h => drawSprite_zeros h s x0 y0⟩
  · have hfirst := drawSprite_composed h s x0 y0
    exact ⟨hfirst.twice (drawSprite_composed h _ x0 y0), (drawSprite_collides h _ x0 y0).trans hfirst.collides_again⟩
  · rw [← spriteLit_fullRow]
    exact (drawSprite_composed (by decide) s 60 y0).pixel_ne_iff r c

/-! ### DRW (42_display.md R182) -/

theorem Memory.readBytes_eq_map (m : Memory) (a n : Nat) :
    m.readBytes a n = (List.range n).map fun j => m.read (a + j) := by
  refine List.ext_getElem (by rw [Memory.readBytes_length, List.length_map, List.length_range]) fun k hk _ => ?_
  rw [Memory.readBytes_get m a n k hk, List.getElem_map, List.getElem_range]

/-- A DRW whose bytes lie in memory draws them and sets VF to the collision. -/
theorem execDrw_draws {x y : Reg} {n : Nibble} {s : State} (h : n.toNat = 0 ∨ s.I.toNat + n.toNat - 1 ≤ 0xFFF) :
    ∃ t, exec (.drw x y n) s = .next t ∧
      Composed s.fb t.fb (s.dataBytes n.toNat) (s.readV x).toNat (s.readV y).toNat ∧
      (Collides s.fb (s.dataBytes n.toNat) (s.readV x).toNat (s.readV y).toNat → t.readV VF = 1#8) ∧
      (¬ Collides s.fb (s.dataBytes n.toNat) (s.readV x).toNat (s.readV y).toNat → t.readV VF = 0#8) ∧
      t.redraw = true ∧ t.pc = s.pc + 2 ∧ ({ regs := [VF], fb := true, redraw := true } : Touches).only s t := by
  have hlen : (s.dataBytes n.toNat).length ≤ 15 := by
    rw [State.dataBytes_length]
    omega
  have hcol := drawSprite_collides hlen s (s.readV x).toNat (s.readV y).toNat
  refine ⟨_, s.withData_fits (.drw x y n) n.toNat _ h, drawSprite_composed hlen s _ _, ?_, ?_, rfl, rfl,
    Touches.only_sprite s _ _ _⟩
  · intro hc
    exact (State.readV_writeV_same _ _ _).trans (congrArg flagByte (hcol.2 hc))
  · intro hc
    exact (State.readV_writeV_same _ _ _).trans (congrArg flagByte (Bool.eq_false_iff.2 (mt hcol.1 hc)))

/-- Settles O41: `execDrw_draws`, with the bytes from `I` as a list of reads. -/
theorem drwBlitsTheBytesAtI : Obligations.DrwBlitsTheBytesAtI := by
  refine ⟨decodesAs_major fun w hop => by rw [decodeWord, hop]; rfl, fun x y n s h => ?_⟩
  obtain ⟨t, hdraws⟩ := execDrw_draws (x := x) (y := y) h
  exact ⟨t, s.dataBytes n.toNat, Memory.readBytes_eq_map s.mem s.I.toNat n.toNat, hdraws⟩

/-! ### VF after each instruction (10_state.md R37) -/

/-- The pixels that a sprite turns off are those it collides with. -/
theorem Composed.turnsOff_iff {fb fb' : Framebuffer} {rows : List Byte} {x0 y0 : Nat} (h : Composed fb fb' rows x0 y0) :
    (∃ r c, Framebuffer.pixel fb r c = true ∧ Framebuffer.pixel fb' r c = false) ↔ Collides fb rows x0 y0 := by
  refine exists_congr fun r => exists_congr fun c => ?_
  by_cases hlit : SpriteLit rows x0 y0 r c
  · rw [(h r c).1 hlit, Bool.not_eq_false', and_self]
    exact (and_iff_right hlit).symm
  · rw [(h r c).2 hlit]
    exact iff_of_false (fun ⟨hon, hoff⟩ => absurd (hon.symm.trans hoff) (by decide)) fun ⟨hlit', _⟩ => hlit hlit'

/-- What holds of some next state of an outcome holds of each. -/
theorem of_completes {o : Result} {t : State} {p : State → Prop} (h : o = .next t)
    (hp : ∃ u, o = .next u ∧ p u) : p t := by
  obtain ⟨u, hu, hpu⟩ := hp
  obtain rfl : u = t := Host.Outcome.next.inj (hu.symm.trans h)
  exact hpu

theorem execDrw_VF {x y : Reg} {n : Nibble} {s t : State} (h : exec (.drw x y n) s = .next t) (ht : t.fault = none) :
    ((∃ r c, Framebuffer.pixel s.fb r c = true ∧ Framebuffer.pixel t.fb r c = false) → t.readV VF = 1#8) ∧
    ((¬ ∃ r c, Framebuffer.pixel s.fb r c = true ∧ Framebuffer.pixel t.fb r c = false) → t.readV VF = 0#8) := by
  by_cases hfit : n.toNat = 0 ∨ s.I.toNat + n.toNat - 1 ≤ 0xFFF
  · obtain ⟨hcomp, hone, hzero, -⟩ := of_completes h (execDrw_draws hfit)
    rw [hcomp.turnsOff_iff]
    exact ⟨hone, hzero⟩
  · rw [exec, execDrw, s.withData_overrun _ _ _ (by omega) (by omega)] at h
    cases h
    cases ht

/-- A register outside an instruction's frame keeps its value. -/
theorem exec_readV {i : Instr} {s t : State} (h : exec i s = .next t) {r : Reg} (hr : r ∉ (touchesOf i s).regs) :
    t.readV r = s.readV r := by
  obtain ⟨hV, -⟩ := exec_frames i s t h
  exact hV r hr

/-- Settles O19: the flag by the obligation about each flag-setting instruction, and VF outside the frame of every
other. -/
theorem vfAfterEachInstruction : Obligations.VFAfterEachInstruction := by
  refine ⟨rfl, fun i s t hf h ht => ?_⟩
  cases i with
  | addReg x y =>
    obtain ⟨-, hflag, -⟩ := of_completes h (addSetsCarry.2 x y s)
    exact hflag
  | subReg x y =>
    obtain ⟨-, hflag, -⟩ := of_completes h (subSetsNoBorrow.2 x y s)
    exact hflag
  | subnReg x y =>
    obtain ⟨-, hflag, -⟩ := of_completes h (subnSetsNoBorrow.2 x y s)
    exact hflag
  | shr x y =>
    obtain ⟨-, hflag, -⟩ := of_completes h (shiftRightIntoVF.2 x y s)
    exact hflag
  | shl x y =>
    obtain ⟨-, hflag, -⟩ := of_completes h (shiftLeftIntoVF.2 x y s)
    exact hflag
  | drw x y n => exact execDrw_VF h ht
  | ldImm x kk | addImm x kk | ldReg x y | orReg x y | andReg x y | xorReg x y | rnd x kk | ldVxDt x | ldVxK x =>
    exact fun hx => exec_readV h (mt List.mem_singleton.1 hx.symm)
  | loadRegs x =>
    refine fun hx => exec_readV h fun hmem => hx ?_
    have hle : VF ≤ x := by simpa [touchesOf] using hmem
    exact le_antisymm (Fin.le_last x) hle
  | cls | ret | sys nnn | jp nnn | call nnn | seImm x kk | sneImm x kk | seReg x y | sneReg x y | ldI nnn | jpV0 nnn
  | skp x | sknp x | ldDtVx x | ldStVx x | addI x | ldF x | ldB x | storeRegs x => exact exec_readV h List.not_mem_nil

end Sys2Proof.Machine
end

section
/-! PROOFS. Control flow: SYS (O23), the jumps (O24), CALL and RET (O25 to O28), the skips (O29), and a jump to its own
address (O59). -/

namespace Sys2Proof.Machine

/-! ### Words known by a mask (30_encoding.md R101) -/

/-- A mask that fixes the major nibble and the low byte leaves the decoder those two to go by. -/
theorem decodesAs_xkk {pat : Word} {make : Word → Instr}
    (hdec : ∀ w, opField w = opField pat → kkField w = kkField pat → decodeWord w = .ok (make w)) :
    DecodesAs 0xF0FF#16 pat make := by
  intro w hw
  have hop : opField w = opField pat := by rw [← hw, opField_and w _ (by decide)]
  have hkk : kkField w = kkField pat := by rw [← hw, kkField_and w _ (by decide)]
  exact hdec w hop hkk

theorem decodeWord_of_opField_fifteen {w : Word} (hop : opField w = 0xF#4) : decodeWord w = decodeMisc w := by
  rw [decodeWord, hop]
  rfl

theorem decodeWord_of_opField_fourteen {w : Word} (hop : opField w = 0xE#4) : decodeWord w = decodeKey w := by
  rw [decodeWord, hop]
  rfl

/-- The words FxKK of one low byte KK. -/
theorem decodesAs_misc {pat : Word} {make : Word → Instr} (hpat : opField pat = 0xF#4)
    (hdec : ∀ w, kkField w = kkField pat → decodeMisc w = .ok (make w)) : DecodesAs 0xF0FF#16 pat make :=
  decodesAs_xkk fun w hop hkk => (decodeWord_of_opField_fifteen (hop.trans hpat)).trans (hdec w hkk)

/-- The words ExKK of one low byte KK. -/
theorem decodesAs_key {pat : Word} {make : Word → Instr} (hpat : opField pat = 0xE#4)
    (hdec : ∀ w, kkField w = kkField pat → decodeKey w = .ok (make w)) : DecodesAs 0xF0FF#16 pat make :=
  decodesAs_xkk fun w hop hkk => (decodeWord_of_opField_fourteen (hop.trans hpat)).trans (hdec w hkk)

/-! ### SYS and the jumps (40_flow.md R130, R132, R138) -/

/-- Settles O23: the block's policy is `fault`, and each policy is one branch of `sysUnder`. -/
theorem sysFollowsItsPolicy : Obligations.SysFollowsItsPolicy := fun _ _ => ⟨rfl, rfl⟩

/-- Settles O24: both targets are sums of zero-extended fields that do not wrap. -/
theorem jumpsSetPc : Obligations.JumpsSetPc :=
  ⟨decodesAs_major fun w hop => by rw [decodeWord, hop]; rfl, decodesAs_major fun w hop => by rw [decodeWord, hop]; rfl,
    fun nnn s => ⟨⟨_, rfl, addrWord_toNat nnn, Touches.only_refl _ s⟩,
      ⟨_, rfl, addrWord_add_readVWord_toNat nnn s 0, Touches.only_refl _ s⟩⟩⟩

/-! ### CALL and RET (40_flow.md R131, R133) -/

/-- Settles O25: `execCall_pushes`. -/
theorem callPushesTheReturnAddress : Obligations.CallPushesTheReturnAddress := by
  refine ⟨decodesAs_major fun w hop => by rw [decodeWord, hop]; rfl, fun nnn s hsp => ?_⟩
  refine ⟨_, execCall_pushes nnn hsp, addrWord_toNat nnn, s.sp_add_one hsp, Vector.getElem_set_self hsp,
    fun k hk => ?_, ?_⟩
  · exact Vector.getElem_set_ne hsp k.isLt hk.symm
  · simp [Touches.only]

/-- Settles O26: `execRet_pops`. -/
theorem returnPopsTheStack : Obligations.ReturnPopsTheStack := by
  refine ⟨rfl, fun s hpos hsp => ⟨_, execRet_pops hpos hsp, ?_, rfl, ?_⟩⟩
  · rw [State.setPc_sp, State.setSp_sp, s.sp_sub_one hpos]
    omega
  · simp [Touches.only]

/-- Settles O27: the two ends of the stack. -/
theorem stackFaultsOfCallAndReturn : Obligations.StackFaultsOfCallAndReturn :=
  ⟨fun nnn _ h => execCall_overflow nnn h, fun _ h => execRet_underflow h⟩

/-- Settles O28: RET reads the entry that CALL stored at the old `sp`. -/
theorem returnUndoesCall : Obligations.ReturnUndoesCall := by
  intro nnn s t u hsp hcall husp hustack
  have ht : ((s.setStack (s.stack.set s.sp.toNat (s.pc + 2))).setSp (s.sp + 1)).setPc (addrWord nnn) = t :=
    Host.Outcome.next.inj ((execCall_pushes nnn hsp).symm.trans hcall)
  subst ht
  have hu : u.sp.toNat = s.sp.toNat + 1 := by
    rw [husp]
    exact s.sp_add_one hsp
  refine ⟨_, execRet_pops (by omega) (by omega), ?_, ?_⟩
  · have hentry : ∀ k (hk : k < 16), k = s.sp.toNat → u.stack[k] = s.pc + 2 := by
      rintro k hk rfl
      simp only [hustack]
      exact Vector.getElem_set_self hsp
    exact hentry _ _ (by omega)
  · rw [State.setPc_sp, State.setSp_sp, husp]
    exact BitVec.add_sub_cancel s.sp 1

/-! ### The skips (40_flow.md R139) -/

theorem State.skipIf_completes (s : State) {c : Bool} {p : Prop} [Decidable p] (hc : c = true ↔ p) :
    ∃ t, Host.Outcome.next (s.skipIf c) = (.next t : Result) ∧ (t.pc = if p then s.pc + 4 else s.pc + 2) ∧
      ({} : Touches).only s t := by
  refine ⟨_, rfl, ?_, Touches.only_refl _ s⟩
  by_cases h : p
  · simp [h, hc.2 h]
  · simp [h, Bool.eq_false_iff.2 (mt hc.1 h)]

/-- A skip under the opposite condition. -/
theorem State.skipIf_completes_not (s : State) {c : Bool} {p : Prop} [Decidable p] (hc : c = true ↔ ¬ p) :
    ∃ t, Host.Outcome.next (s.skipIf c) = (.next t : Result) ∧ (t.pc = if p then s.pc + 2 else s.pc + 4) ∧
      ({} : Touches).only s t := by
  obtain ⟨t, ht, hpc, honly⟩ := s.skipIf_completes hc
  exact ⟨t, ht, by rw [hpc, ite_not], honly⟩

theorem byte_beq_iff_toNat (a b : Byte) : (a == b) = true ↔ a.toNat = b.toNat :=
  beq_iff_eq.trans BitVec.toNat_inj.symm

theorem byte_bne_iff_toNat (a b : Byte) : (a != b) = true ↔ ¬ a.toNat = b.toNat :=
  bne_iff_ne.trans BitVec.toNat_inj.not.symm

/-- Settles O29: a skip under the comparison of two bytes, or under its opposite. -/
theorem skipsCompareWholeBytes : Obligations.SkipsCompareWholeBytes :=
  ⟨decodesAs_major fun w hop => by rw [decodeWord, hop]; rfl, decodesAs_major fun w hop => by rw [decodeWord, hop]; rfl,
    decodesAs_xyn fun w hop hn => by rw [decodeWord, hop, hn]; rfl,
    decodesAs_xyn fun w hop hn => by rw [decodeWord, hop, hn]; rfl,
    fun _ _ _ s => ⟨s.skipIf_completes (byte_beq_iff_toNat _ _), s.skipIf_completes_not (byte_bne_iff_toNat _ _),
      s.skipIf_completes (byte_beq_iff_toNat _ _), s.skipIf_completes_not (byte_bne_iff_toNat _ _)⟩⟩

/-! ### A jump to its own address (70_reset_and_hazards.md R301) -/

/-- An address that can be fetched from, under the major nibble 1, is the opcode of the jump to it. -/
theorem jumpWord_eq {a : Word} (ha : a.toNat < 4096) : 0x1000#16 ||| a = encode (.jp (a.setWidth 12)) := by
  apply BitVec.eq_of_toNat_eq
  rw [encode, wordNNN, BitVec.toNat_or, BitVec.toNat_append, BitVec.toNat_setWidth, Nat.mod_eq_of_lt ha]
  rfl

/-- Settles O59: the opcode is that of JP to `pc`, and JP sets `pc` to what it is. -/
theorem jumpToSelfIsAFixedPoint : Obligations.JumpToSelfIsAFixedPoint := by
  intro s ho
  by_cases hf : s.fault = none
  · have ha : s.pc.toNat < 4096 := by
      have := ((s.fetchOpcode_some _).1 ho).1
      omega
    have hself : addrWord (s.pc.setWidth 12) = s.pc := by
      apply BitVec.eq_of_toNat_eq
      rw [addrWord_toNat, BitVec.toNat_setWidth, Nat.mod_eq_of_lt ha]
    rw [jumpWord_eq ha] at ho
    rw [step_runs s _ _ hf ho (decodeWord_encode _ rfl), exec, execJp, hself, State.setPc_self]
  · exact step_halted s hf

end Sys2Proof.Machine
end

section
/-! PROOFS. The results of the flagless register instructions (O31), RND (O37), the timer moves (O45) and the index
register (O46). -/

namespace Sys2Proof.Machine

/-! ### Results in one register (41_alu.md section 2) -/

/-- What holds of the value holds of the register after it is written. -/
theorem State.setResult_completes_with (p : Byte → Prop) (s : State) (x : Reg) {v : Byte} (hv : p v) :
    ∃ t, s.setResult x v = .next t ∧ p (t.readV x) ∧ t.pc = s.pc + 2 ∧ ({ regs := [x] } : Touches).only s t := by
  obtain ⟨t, ht, hread, hrest⟩ := s.setResult_completes x v
  exact ⟨t, ht, by rwa [hread], hrest⟩

/-- Settles O31: each result is one `BitVec` operation, written by `setResult`. -/
theorem flaglessRegisterResults : Obligations.FlaglessRegisterResults := by
  refine ⟨decodesAs_major fun w hop => by rw [decodeWord, hop]; rfl,
    decodesAs_alu rfl fun w hn => by rw [decodeAlu, hn]; rfl, decodesAs_alu rfl fun w hn => by rw [decodeAlu, hn]; rfl,
    decodesAs_alu rfl fun w hn => by rw [decodeAlu, hn]; rfl, decodesAs_alu rfl fun w hn => by rw [decodeAlu, hn]; rfl,
    fun x y kk s => ⟨?_, ?_, ?_, ?_, ?_⟩⟩
  · exact s.setResult_completes_with (fun v => v.toNat = ((s.readV x).toNat + kk.toNat) % 256) x (BitVec.toNat_add _ _)
  · exact s.setResult_completes x (s.readV y)
  · exact s.setResult_completes_with (fun v => ∀ k, v.getLsbD k = ((s.readV x).getLsbD k || (s.readV y).getLsbD k)) x
      fun _ => BitVec.getLsbD_or
  · exact s.setResult_completes_with (fun v => ∀ k, v.getLsbD k = ((s.readV x).getLsbD k && (s.readV y).getLsbD k)) x
      fun _ => BitVec.getLsbD_and
  · exact s.setResult_completes_with (fun v => ∀ k, v.getLsbD k = ((s.readV x).getLsbD k != (s.readV y).getLsbD k)) x
      fun _ => BitVec.getLsbD_xor

/-! ### RND (41_alu.md R161) -/

theorem rndInto_completes (r : Byte) (x : Reg) (kk : Byte) (s : State) :
    ∃ t, rndInto r x kk s = .next t ∧ (∀ k, (t.readV x).getLsbD k = (r.getLsbD k && kk.getLsbD k)) ∧
      t.pc = s.pc + 2 ∧ ({ regs := [x], draws := true } : Touches).only s t := by
  refine ⟨_, rfl, fun k => ?_, rfl, Touches.only_drawn s _ x _⟩
  have hread : ((((s.setDraws (s.draws + 1)).writeV x (r &&& kk)).advance).readV x) = r &&& kk :=
    State.readV_writeV_same _ x _
  rw [hread, BitVec.getLsbD_and]

/-- Settles O37: `rndInto_completes`, for the free draw and for every byte as the draw. -/
theorem randomByteIsMasked : Obligations.RandomByteIsMasked := by
  refine ⟨decodesAs_major fun w hop => by rw [decodeWord, hop]; rfl,
    fun x kk s => ⟨rndInto_completes _ x kk s, fun r => ?_⟩⟩
  obtain ⟨t, ht, hbits, -⟩ := rndInto_completes r x kk s
  exact ⟨t, ht, hbits⟩

/-! ### The timers (44_timer_index_memory.md R220 to R222) -/

theorem Touches.only_setDT_advance (s : State) (v : Byte) : ({ DT := true } : Touches).only s (s.setDT v).advance := by
  simp [Touches.only]

theorem Touches.only_setST_advance (s : State) (v : Byte) : ({ ST := true } : Touches).only s (s.setST v).advance := by
  simp [Touches.only]

/-- Settles O45: each move is one update. -/
theorem timerMoves : Obligations.TimerMoves :=
  ⟨decodesAs_misc rfl fun w hkk => by rw [decodeMisc, hkk]; rfl,
    decodesAs_misc rfl fun w hkk => by rw [decodeMisc, hkk]; rfl,
    decodesAs_misc rfl fun w hkk => by rw [decodeMisc, hkk]; rfl,
    fun x s => ⟨s.setResult_completes x s.DT, ⟨_, rfl, rfl, rfl, Touches.only_setDT_advance s _⟩,
      ⟨_, rfl, rfl, rfl, Touches.only_setST_advance s _⟩⟩⟩

/-! ### The index register (44_timer_index_memory.md R223 to R225) -/

theorem Touches.only_setI_advance (s : State) (v : Word) : ({ I := true } : Touches).only s (s.setI v).advance := by
  simp [Touches.only]

theorem State.readVWord_toNat (s : State) (x : Reg) : (s.readVWord x).toNat = (s.readV x).toNat := by
  rw [State.readVWord, BitVec.toNat_setWidth]
  omega

/-- Five times a byte fits in 16 bits. -/
theorem glyphAddress_toNat (s : State) (x : Reg) :
    (s.readVWord x * BitVec.ofNat 16 glyphSize).toNat = 5 * (s.readV x).toNat := by
  have hfive : (BitVec.ofNat 16 glyphSize).toNat = 5 := rfl
  rw [BitVec.toNat_mul, s.readVWord_toNat, hfive]
  omega

/-- Settles O46: the three values of `I` as numbers. -/
theorem indexRegisterLoads : Obligations.IndexRegisterLoads := by
  refine ⟨decodesAs_major fun w hop => by rw [decodeWord, hop]; rfl,
    decodesAs_misc rfl fun w hkk => by rw [decodeMisc, hkk]; rfl,
    decodesAs_misc rfl fun w hkk => by rw [decodeMisc, hkk]; rfl,
    fun nnn x s => ⟨⟨_, rfl, addrWord_toNat nnn, rfl, Touches.only_setI_advance s _⟩,
      ⟨_, rfl, ?_, rfl, Touches.only_setI_advance s _⟩,
      ⟨_, rfl, glyphAddress_toNat s x, rfl, Touches.only_setI_advance s _⟩⟩⟩
  exact (BitVec.toNat_add s.I (s.readVWord x)).trans (by rw [s.readVWord_toNat])

end Sys2Proof.Machine
end

section
/-! PROOFS. The key instructions: SKP and SKNP (O42), LD Vx,K (O43) and the step that waits in it (O44). -/

namespace Sys2Proof.Machine

/-! ### The key skips (43_keyboard.md R203, R204) -/

theorem State.skipIf_pc_of_true (s : State) {c : Bool} (h : c = true) : (s.skipIf c).pc = s.pc + 4 := by
  rw [h]
  rfl

theorem State.skipIf_pc_of_false (s : State) {c : Bool} (h : c = false) : (s.skipIf c).pc = s.pc + 2 := by
  rw [h]
  rfl

/-- Settles O42: both skips test `isPressed`, which is membership of the whole byte in the held set. -/
theorem keySkipsTestTheHeldSet : Obligations.KeySkipsTestTheHeldSet := by
  refine ⟨decodesAs_key rfl fun w hkk => by rw [decodeKey, hkk]; rfl,
    decodesAs_key rfl fun w hkk => by rw [decodeKey, hkk]; rfl, fun x s => ?_⟩
  rw [← KeySet.isPressed_iff s.keys (s.readV x)]
  refine ⟨_, _, rfl, rfl, fun hin => ?_, fun hout => ?_, Touches.only_refl _ s, Touches.only_refl _ s⟩
  · exact ⟨s.skipIf_pc_of_true hin, s.skipIf_pc_of_false (by rw [hin]; rfl)⟩
  · rw [Bool.not_eq_true] at hout
    exact ⟨s.skipIf_pc_of_false hout, s.skipIf_pc_of_true (by rw [hout]; rfl)⟩

/-! ### LD Vx,K (43_keyboard.md R205, R206) -/

/-- With a key held, whatever the draw: the key it picks is loaded. -/
theorem waitKey_completes {s : State} {k : Key} {rest : List Key} (hheld : KeySet.held s.keys = k :: rest) (d : Nat)
    (x : Reg) : ∃ t, waitKey d x s = .next t ∧ (t.readV x).toNat = (pickKey d k rest).val ∧ t.pc = s.pc + 2 ∧
      ({ regs := [x], draws := true } : Touches).only s t := by
  refine ⟨_, waitKey_loads d x hheld, ?_, rfl, Touches.only_drawn s _ x _⟩
  have hread : ((((s.setDraws (s.draws + 1)).writeV x (keyByte (pickKey d k rest))).advance).readV x) =
    keyByte (pickKey d k rest) := State.readV_writeV_same _ x _
  rw [hread, keyByte_toNat]

theorem KeySet.held_eq_cons {ks : KeySet} {k : Key} (h : KeySet.holds ks k = true) :
    ∃ j rest, KeySet.held ks = j :: rest :=
  List.exists_cons_of_ne_nil (List.ne_nil_of_mem ((KeySet.mem_held ks k).2 h))

/-- The words Fx0A. -/
theorem decodesAs_ldVxK : DecodesAs 0xF0FF#16 0xF00A#16 fun w => .ldVxK (w.extractLsb' 8 4).toFin :=
  decodesAs_misc rfl fun w hkk => by rw [decodeMisc, hkk]; rfl

/-- Settles O43: the draw picks a held key, and every held key is picked by some draw. -/
theorem keyWaitLoadsSomeHeldKey : Obligations.KeyWaitLoadsSomeHeldKey := by
  refine ⟨decodesAs_ldVxK, fun x s => ⟨fun hno => ?_, ?_, fun k hk => ?_⟩⟩
  · exact waitKey_waits _ x ((KeySet.held_nil s.keys).2 hno)
  · rintro ⟨k, hk⟩
    obtain ⟨j, rest, hheld⟩ := KeySet.held_eq_cons hk
    obtain ⟨t, ht, hread, hpc, honly⟩ := waitKey_completes hheld (Config.pick s.draws) x
    refine ⟨t, pickKey (Config.pick s.draws) j rest, ht, (KeySet.mem_held s.keys _).1 ?_, hread, hpc, honly⟩
    rw [hheld]
    exact pickKey_mem _ j rest
  · obtain ⟨j, rest, hheld⟩ := KeySet.held_eq_cons hk
    obtain ⟨d, hd⟩ := pickKey_surjective j rest k (hheld ▸ (KeySet.mem_held s.keys k).2 hk)
    obtain ⟨t, ht, hread, -⟩ := waitKey_completes hheld d x
    exact ⟨d, t, ht, by rw [hread, hd]⟩

/-- Settles O44: the word is an LD Vx,K, which waits; a halted block does not move either. -/
theorem waitingStepIsTheIdentity : Obligations.WaitingStepIsTheIdentity := by
  intro s w ho hw hno
  by_cases hf : s.fault = none
  · rw [step_runs s w _ hf ho (decodesAs_ldVxK w hw)]
    exact waitKey_waits _ _ ((KeySet.held_nil s.keys).2 hno)
  · exact step_halted s hf

end Sys2Proof.Machine
end

section
/-! PROOFS. The instructions that store to and load from memory at `I` (O47 to O51), the load of a program (O56), and
Reset (O58). -/

namespace Sys2Proof.Machine

/-! ### Stores at I (44_timer_index_memory.md R226, R227) -/

/-- A store whose bytes lie in memory puts them from `I` up and touches nothing else. -/
theorem State.storeData_completes {s : State} {bs : List Byte} {m : Nat} (i : Instr) (hm : bs.length = m)
    (hw : s.mem.wf = true) (hfit : s.I.toNat + m ≤ memSize) :
    ∃ t, s.withData i m (.next (s.storeData bs).advance) = .next t ∧
      (∀ k (hk : k < bs.length), t.mem.read (s.dataBase + k) = bs[k]) ∧ t.pc = s.pc + 2 ∧ t.I = s.I ∧
      t.fault = s.fault ∧ ({ mem := (List.range m).map (s.dataBase + ·) } : Touches).only s t := by
  have hdata : m = 0 ∨ s.I.toNat + m - 1 ≤ 0xFFF := .inr (by simp only [memSize] at hfit; omega)
  refine ⟨_, s.withData_fits i m _ hdata, fun k hk => ?_, rfl, rfl, rfl, Touches.only_storeData_advance hm s⟩
  exact Memory.read_writeBytes_stored bs s.mem s.dataBase k hk (hm ▸ hfit) hw

theorem byte_ofNat_toNat {n : Nat} (h : n < 256) : (BitVec.ofNat 8 n).toNat = n := Nat.mod_eq_of_lt h

/-- Settles O47: the three digits are below 10, and the store puts them one after another. -/
theorem bcdDigitsAreStored : Obligations.BcdDigitsAreStored := by
  refine ⟨decodesAs_misc rfl fun w hkk => by rw [decodeMisc, hkk]; rfl, fun x s hw hI => ?_⟩
  obtain ⟨t, ht, hbytes, hpc, -, -, honly⟩ :=
    State.storeData_completes (.ldB x) (bcdDigits_length (s.readV x)) hw (by simp only [memSize]; omega)
  have hv := (s.readV x).isLt
  have hlen := bcdDigits_length (s.readV x)
  refine ⟨t, ht, ?_, ?_, ?_, hpc, honly⟩
  · exact (congrArg BitVec.toNat (hbytes 0 (by omega))).trans (byte_ofNat_toNat (by omega))
  · exact (congrArg BitVec.toNat (hbytes 1 (by omega))).trans (byte_ofNat_toNat (by omega))
  · exact (congrArg BitVec.toNat (hbytes 2 (by omega))).trans (byte_ofNat_toNat (by omega))

/-- LD [I],Vx in bounds stores each of V0 to Vx at its own offset. -/
theorem execStoreRegs_completes {x : Reg} {s : State} (hw : s.mem.wf = true) (hI : s.I.toNat + x.val ≤ 0xFFF) :
    ∃ t, exec (.storeRegs x) s = .next t ∧ (∀ k : Reg, k ≤ x → t.mem.read (s.dataBase + k.val) = s.readV k) ∧
      t.pc = s.pc + 2 ∧ t.I = s.I ∧ t.fault = s.fault ∧
      ({ mem := (List.range (x.val + 1)).map (s.dataBase + ·) } : Touches).only s t := by
  obtain ⟨t, ht, hbytes, hrest⟩ :=
    State.storeData_completes (.storeRegs x) (s.regsUpTo_length x) hw (by simp only [memSize]; omega)
  refine ⟨t, ht, fun k hk => ?_, hrest⟩
  have hlt : k.val < (s.regsUpTo x).length := by
    rw [s.regsUpTo_length]
    exact Nat.lt_succ_of_le hk
  exact (hbytes k.val hlt).trans (s.regsUpTo_get x k.val hlt k.isLt)

/-- Settles O48: `execStoreRegs_completes`. -/
theorem registersAreStoredAtI : Obligations.RegistersAreStoredAtI := by
  refine ⟨decodesAs_misc rfl fun w hkk => by rw [decodeMisc, hkk]; rfl, fun x s hw hI => ?_⟩
  obtain ⟨t, ht, hbytes, hpc, -, -, honly⟩ := execStoreRegs_completes hw hI
  exact ⟨t, ht, hbytes, hpc, honly⟩

/-! ### Loads from I (44_timer_index_memory.md R228) -/

/-- LD Vx,[I] in bounds loads each of V0 to Vx from its own offset. -/
theorem execLoadRegs_completes {x : Reg} {s : State} (hI : s.I.toNat + x.val ≤ 0xFFF) :
    ∃ t, exec (.loadRegs x) s = .next t ∧ (∀ k : Reg, k ≤ x → t.readV k = s.mem.read (s.I.toNat + k.val)) ∧
      t.pc = s.pc + 2 ∧ ({ regs := (List.finRange 16).filter (· ≤ x) } : Touches).only s t := by
  refine ⟨_, s.withData_fits (.loadRegs x) (x.val + 1) _ (.inr (by omega)), fun k hk => ?_, ?_,
    Touches.only_writeRegs_advance x (s.dataBytes_length _) s⟩
  · have hlt : k.val - 0 < (s.dataBytes (x.val + 1)).length := by
      rw [s.dataBytes_length]
      exact Nat.lt_succ_of_le hk
    exact (State.writeRegs_loaded _ s 0 k (Nat.zero_le _) hlt).trans (Memory.readBytes_get s.mem s.dataBase _ k.val hlt)
  · rw [State.advance_eq, State.setPc_pc, State.writeRegs_pc]

/-- Settles O49: `execLoadRegs_completes`; the registers above Vx lie outside its frame. -/
theorem registersAreLoadedFromI : Obligations.RegistersAreLoadedFromI := by
  refine ⟨decodesAs_misc rfl fun w hkk => by rw [decodeMisc, hkk]; rfl, fun x s hI => ?_⟩
  obtain ⟨t, ht, hregs, hpc, honly⟩ := execLoadRegs_completes hI
  exact ⟨t, ht, hregs, fun k hk => exec_readV ht (by simpa [touchesOf] using hk), hpc, honly⟩

/-- Settles O50: each register is loaded from where it was stored. -/
theorem loadAfterStoreRestoresRegisters : Obligations.LoadAfterStoreRestoresRegisters := by
  intro x s t u v hw hI hstore humem huI hload k hk
  obtain ⟨hbytes, -, hIt, -⟩ := of_completes hstore (execStoreRegs_completes hw hI)
  have huI' : u.I = s.I := huI.trans hIt
  obtain ⟨hregs, -⟩ := of_completes hload (execLoadRegs_completes (by rwa [huI']))
  rw [hregs k hk, humem, huI']
  exact hbytes k hk

/-! ### A store seen by the next fetch (20_memory.md R79) -/

/-- Settles O51: the two bytes at the next `pc` are V0 and V1. -/
theorem storedCodeIsFetchedNext : Obligations.StoredCodeIsFetchedNext := by
  intro x s t i hw hf hpc hx hI hfit hstore hdec
  obtain ⟨hbytes, hpct, -, hft, -⟩ := of_completes hstore (execStoreRegs_completes hw hfit)
  have hnext : t.pc.toNat = s.dataBase := by
    rw [hpct, State.dataBase, hI]
    bv_omega
  have hV0 : t.mem.read t.pc.toNat = s.readV 0 := by
    rw [hnext]
    exact hbytes 0 (Fin.zero_le x)
  have hV1 : t.mem.read (t.pc.toNat + 1) = s.readV 1 := by
    rw [hnext]
    exact hbytes 1 hx
  have ho : t.fetchOpcode = some (joinBytes (s.readV 0) (s.readV 1)) := by
    refine (t.fetchOpcode_some _).2 ⟨?_, by rw [hV0, hV1]⟩
    rw [hnext, State.dataBase]
    omega
  exact step_runs t _ i (hft.trans hf) ho hdec

/-! ### The load of a program and Reset (70_reset_and_hazards.md R290, R293) -/

/-- Settles O56: one block write from 0x200. -/
theorem loadProgramCopiesTheImage : Obligations.LoadProgramCopiesTheImage := by
  intro bytes s hw hf hlen
  refine ⟨_, congrArg Host.Outcome.next (loadProgram_fits hf hlen), fun k hk => ?_, rfl,
    Touches.only_writeBytes rfl s progBase⟩
  rw [List.getD_eq_getElem _ _ hk]
  exact Memory.read_writeBytes_stored bytes s.mem progBase k hk (by simp only [progBase, memSize]; omega) hw

/-- Settles O58: the fields of the reset state, with the laws of the font load for memory. -/
theorem resetGivesEveryElementItsValue : Obligations.ResetGivesEveryElementItsValue := by
  refine ⟨fun s => congrArg Host.Outcome.next (resetOp_eq s), by decide, fun font s => ⟨_, rfl, rfl, rfl, fun r => ?_,
    rfl, rfl, rfl, fun k => ?_, fun k => Memory.read_loadFont font k.val k.isLt,
    fun a ha => Memory.read_loadFont_above font a ha, Framebuffer.pixel_blank, rfl, fun k => ?_, rfl, rfl⟩⟩
  · exact Vector.getElem_replicate r.isLt
  · exact Vector.getElem_replicate k.isLt
  · exact Vector.getElem_replicate k.isLt

end Sys2Proof.Machine
end
